-- ==== Sys2Proof/Word.lean ====
section
/-! DEFINITION. The widths of the machine's values (00_scope.md R8, R9). Every value is unsigned. -/

namespace Sys2Proof

/-- A memory cell, a general register, a timer, an immediate `kk`: 8 bits (R9). -/
abbrev Byte := BitVec 8

/-- An instruction word, `I`, `PC`, a stack entry: 16 bits (R9). -/
abbrev Word := BitVec 16

/-- A register number, a key code, a sprite height: 4 bits (30_encoding.md R81). -/
abbrev Nibble := BitVec 4

/-- The address field `nnn`: 12 bits (30_encoding.md R81). -/
abbrev Addr12 := BitVec 12

end Sys2Proof
end

