-- ==== Sys2Proof/Config.lean ====
section
/-! DEFINITION. What an implementation fixes: the constants of 00_scope.md R6, the parameters of R7, and the
random byte, which nothing fixes. -/

namespace Sys2Proof

/-- `MEM_SIZE`: addresses 0..4095 (R6). -/
abbrev memSize : Nat := 4096

/-- `PROG_BASE` and `PC_RESET`: 0x200 (R6). -/
abbrev progBase : Nat := 0x200

/-- `PROG_MAX`: 4096 - 0x200 bytes (R6). -/
abbrev progMax : Nat := 3584

/-- The parameters of R7 that the spec leaves OPEN. They are fixed before reset and never change (10_state.md
R35 (b)). `KEY_PICK` is decided by the spec (the lowest code, 46_key_wait.md R208) and is no field. -/
structure Config where
  /-- `STACK_DEPTH`, at least 12. -/
  stackDepth : Nat
  /-- `FONT_BASE`, at most 0x1B0. -/
  fontBase : Nat
  /-- `FONT[0..79]`, glyph `d` at `FONT[5d .. 5d+4]`. -/
  font : Vector Byte 80
  /-- `ST_READ_LOW`: the low byte of `LD Vx, ST`, or absent (30_encoding.md R95). -/
  stReadLow : Option Byte
  deriving DecidableEq, Repr

/-- The nine other second-level keys of family F, which `ST_READ_LOW` must differ from (R7, 30_encoding.md R95). -/
abbrev Config.usedLow : List Byte := [0x07, 0x0A, 0x15, 0x18, 0x1E, 0x29, 0x33, 0x55, 0x65]

/-- The constraints R7 puts on the parameters. -/
abbrev Config.Admissible (c : Config) : Prop :=
  12 ≤ c.stackDepth ∧ c.fontBase ≤ 0x1B0 ∧ c.stReadLow.all (fun b => !Config.usedLow.contains b) = true

/-- The conventional glyphs of 10_state.md R37 (PRESUMED: the spec's own general knowledge, log entry 5). -/
def Config.defaultFont : Vector Byte 80 := #v[
  0xF0, 0x90, 0x90, 0x90, 0xF0,  0x20, 0x60, 0x20, 0x20, 0x70,
  0xF0, 0x10, 0xF0, 0x80, 0xF0,  0xF0, 0x10, 0xF0, 0x10, 0xF0,
  0x90, 0x90, 0xF0, 0x10, 0x10,  0xF0, 0x80, 0xF0, 0x10, 0xF0,
  0xF0, 0x80, 0xF0, 0x90, 0xF0,  0xF0, 0x10, 0x20, 0x40, 0x40,
  0xF0, 0x90, 0xF0, 0x90, 0xF0,  0xF0, 0x90, 0xF0, 0x10, 0xF0,
  0xF0, 0x90, 0xF0, 0x90, 0x90,  0xE0, 0x90, 0xE0, 0x90, 0xE0,
  0xF0, 0x80, 0x80, 0x80, 0xF0,  0xE0, 0x90, 0x90, 0x90, 0xE0,
  0xF0, 0x80, 0xF0, 0x80, 0xF0,  0xF0, 0x80, 0xF0, 0x80, 0x80]

/-- The defaults of R7 (DESIGN CHOICE for the machine at reset, log entry 1). No claim about all states rests on
them: a state carries its parameters. -/
def Config.default : Config where
  stackDepth := 16
  fontBase := 0x000
  font := Config.defaultFont
  stReadLow := some 0x08

/-- `rand8` (R7, 44_random_keys.md R185, 93 U1): the byte of the `k`-th draw. A FREE VALUE: no body, nothing is
known of it (log entry 2). The state's counter `draws` gives each execution of `RND` its own. -/
opaque Config.rand8 : Nat → Byte

end Sys2Proof
end

