-- ==== Sys2Proof/Syntax.lean ====
section
/-! DEFINITION. The 34 instructions of 30_encoding.md R86, one constructor per row. Ignored bits (R89) are no part
of an instruction. -/

namespace Sys2Proof

/-- An instruction: `x`, `y` name registers, `kk` is an immediate byte, `n` a sprite height, `nnn` an address (R81). -/
inductive Instr where
  /-- `CLS` -/
  | cls
  /-- `RET` -/
  | ret
  /-- `JP nnn` -/
  | jp (nnn : Addr12)
  /-- `CALL nnn` -/
  | call (nnn : Addr12)
  /-- `SE Vx, kk` -/
  | seImm (x : Nibble) (kk : Byte)
  /-- `SNE Vx, kk` -/
  | sneImm (x : Nibble) (kk : Byte)
  /-- `SE Vx, Vy` -/
  | seReg (x y : Nibble)
  /-- `LD Vx, kk` -/
  | ldImm (x : Nibble) (kk : Byte)
  /-- `ADD Vx, kk` -/
  | addImm (x : Nibble) (kk : Byte)
  /-- `LD Vx, Vy` -/
  | ldReg (x y : Nibble)
  /-- `OR Vx, Vy` -/
  | orReg (x y : Nibble)
  /-- `AND Vx, Vy` -/
  | andReg (x y : Nibble)
  /-- `XOR Vx, Vy` -/
  | xorReg (x y : Nibble)
  /-- `ADD Vx, Vy` -/
  | addReg (x y : Nibble)
  /-- `SUB Vx, Vy` -/
  | subReg (x y : Nibble)
  /-- `SHR Vx` -/
  | shr (x : Nibble)
  /-- `SUBN Vx, Vy` -/
  | subnReg (x y : Nibble)
  /-- `SHL Vx` -/
  | shl (x : Nibble)
  /-- `SNE Vx, Vy` -/
  | sneReg (x y : Nibble)
  /-- `LD I, nnn` -/
  | ldI (nnn : Addr12)
  /-- `RND Vx, kk` -/
  | rnd (x : Nibble) (kk : Byte)
  /-- `DRW Vx, Vy, n` -/
  | drw (x y n : Nibble)
  /-- `SKP Vx` -/
  | skp (x : Nibble)
  /-- `SKNP Vx` -/
  | sknp (x : Nibble)
  /-- `LD Vx, DT` -/
  | ldVxDt (x : Nibble)
  /-- `LD Vx, ST` -/
  | ldVxSt (x : Nibble)
  /-- `LD Vx, K` -/
  | ldVxK (x : Nibble)
  /-- `LD DT, Vx` -/
  | ldDtVx (x : Nibble)
  /-- `LD ST, Vx` -/
  | ldStVx (x : Nibble)
  /-- `ADD I, Vx` -/
  | addI (x : Nibble)
  /-- `LD F, Vx` -/
  | ldF (x : Nibble)
  /-- `LD B, Vx` -/
  | ldB (x : Nibble)
  /-- `LD [I], Vx` -/
  | storeRegs (x : Nibble)
  /-- `LD Vx, [I]` -/
  | loadRegs (x : Nibble)
  deriving DecidableEq, Repr

end Sys2Proof
end

