-- ==== Sys2Proof/WellFormed.lean ====
section
/-! DEFINITION. Which instructions exist on a machine with given parameters. Field widths are in the types of
Syntax.lean, so the one check is about `LD Vx, ST`. -/

namespace Sys2Proof

/-- Every instruction has an encoding, but `LD Vx, ST` only while `ST_READ_LOW` is present (30_encoding.md R95). -/
def Instr.wellFormed (c : Config) (i : Instr) : Bool :=
  match i with
  | .ldVxSt _ => c.stReadLow.isSome
  | .cls | .ret | .jp _ | .call _ | .seImm _ _ | .sneImm _ _ | .seReg _ _ | .ldImm _ _ | .addImm _ _ => true
  | .ldReg _ _ | .orReg _ _ | .andReg _ _ | .xorReg _ _ | .addReg _ _ | .subReg _ _ | .shr _ => true
  | .subnReg _ _ | .shl _ | .sneReg _ _ | .ldI _ | .rnd _ _ | .drw _ _ _ | .skp _ | .sknp _ => true
  | .ldVxDt _ | .ldVxK _ | .ldDtVx _ | .ldStVx _ | .addI _ | .ldF _ | .ldB _ | .storeRegs _ | .loadRegs _ => true

end Sys2Proof
end

