-- ==== Sys2Proof/Decode.lean ====
section
/-! DEFINITION. The decoder of 30_encoding.md R84, and after it the encoder, both written from R81, R82 and R86.
The numeric values and field positions are the spec's decisions D5 and D6 (PRESUMED, log entry 4). -/

namespace Sys2Proof

/-- The fields of a word (R81). -/
def opField (w : Word) : Nibble := w.extractLsb' 12 4
def xField (w : Word) : Nibble := w.extractLsb' 8 4
def yField (w : Word) : Nibble := w.extractLsb' 4 4
def nField (w : Word) : Nibble := w.extractLsb' 0 4
def kkField (w : Word) : Byte := w.extractLsb' 0 8
def nnnField (w : Word) : Addr12 := w.extractLsb' 0 12

/-- Two bytes as one word, the first byte high: the fetch is big-endian (20_memory.md R54). -/
def wordOfBytes (hi lo : Byte) : Word := hi ++ lo

/-- The bytes of a word in memory order (20_memory.md R54). -/
def bytesOfWord (w : Word) : List Byte := [w.extractLsb' 8 8, w.extractLsb' 0 8]

/-- Why bytes are no instruction: the five regions of unassigned words of R87, and too few bytes. -/
inductive DecodeReject where
  /-- R87 (a): `0nnn` other than `00E0` and `00EE`. -/
  | unassigned0 (w : Word)
  /-- R87 (b): `8xyn` with `n` in 8..D or F. -/
  | unassigned8 (w : Word)
  /-- R87 (c): `Bnnn`. -/
  | unassignedB (w : Word)
  /-- R87 (d): `Exkk` with `kk` other than 9E and A1. -/
  | unassignedE (w : Word)
  /-- R87 (e): `Fxkk` with a `kk` that is no second-level key. -/
  | unassignedF (w : Word)
  /-- Fewer than the two bytes of R80. -/
  | truncated
  deriving DecidableEq, Repr

/-- Family 0: the whole word is the key (R84, D10). -/
def decode0 (w : Word) : Except DecodeReject Instr :=
  if w = 0x00E0 then .ok .cls
  else if w = 0x00EE then .ok .ret
  else .error (.unassigned0 w)

/-- Family 8: the low nibble is the key; SHR and SHL ignore `y` (R84, R89 (b)). -/
def decode8 (w : Word) : Except DecodeReject Instr :=
  let x := xField w
  let y := yField w
  let n := nField w
  if n = 0x0 then .ok (.ldReg x y)
  else if n = 0x1 then .ok (.orReg x y)
  else if n = 0x2 then .ok (.andReg x y)
  else if n = 0x3 then .ok (.xorReg x y)
  else if n = 0x4 then .ok (.addReg x y)
  else if n = 0x5 then .ok (.subReg x y)
  else if n = 0x6 then .ok (.shr x)
  else if n = 0x7 then .ok (.subnReg x y)
  else if n = 0xE then .ok (.shl x)
  else .error (.unassigned8 w)

/-- Family E: the low byte is the key (R84). -/
def decodeE (w : Word) : Except DecodeReject Instr :=
  if kkField w = 0x9E then .ok (.skp (xField w))
  else if kkField w = 0xA1 then .ok (.sknp (xField w))
  else .error (.unassignedE w)

/-- Family F: the low byte is the key, `ST_READ_LOW` among the keys if present (R84, R95). -/
def decodeF (c : Config) (w : Word) : Except DecodeReject Instr :=
  let x := xField w
  let kk := kkField w
  if kk = 0x07 then .ok (.ldVxDt x)
  else if kk = 0x0A then .ok (.ldVxK x)
  else if kk = 0x15 then .ok (.ldDtVx x)
  else if kk = 0x18 then .ok (.ldStVx x)
  else if kk = 0x1E then .ok (.addI x)
  else if kk = 0x29 then .ok (.ldF x)
  else if kk = 0x33 then .ok (.ldB x)
  else if kk = 0x55 then .ok (.storeRegs x)
  else if kk = 0x65 then .ok (.loadRegs x)
  else if c.stReadLow = some kk then .ok (.ldVxSt x)
  else .error (.unassignedF w)

/-- The decode procedure of R84: a function of the word and the parameters alone (R85). Families 5 and 9 ignore
`n` (R89 (a)). -/
def decodeWord (c : Config) (w : Word) : Except DecodeReject Instr :=
  let op := opField w
  if op = 0x0 then decode0 w
  else if op = 0x1 then .ok (.jp (nnnField w))
  else if op = 0x2 then .ok (.call (nnnField w))
  else if op = 0x3 then .ok (.seImm (xField w) (kkField w))
  else if op = 0x4 then .ok (.sneImm (xField w) (kkField w))
  else if op = 0x5 then .ok (.seReg (xField w) (yField w))
  else if op = 0x6 then .ok (.ldImm (xField w) (kkField w))
  else if op = 0x7 then .ok (.addImm (xField w) (kkField w))
  else if op = 0x8 then decode8 w
  else if op = 0x9 then .ok (.sneReg (xField w) (yField w))
  else if op = 0xA then .ok (.ldI (nnnField w))
  else if op = 0xB then .error (.unassignedB w)
  else if op = 0xC then .ok (.rnd (xField w) (kkField w))
  else if op = 0xD then .ok (.drw (xField w) (yField w) (nField w))
  else if op = 0xE then decodeE w
  else decodeF c w

/-- Decode from bytes in memory order: the instruction and the bytes after it. Every instruction has two (R80). -/
def decodeBytes (c : Config) : List Byte → Except DecodeReject (Instr × List Byte)
  | hi :: lo :: rest =>
    match decodeWord c (wordOfBytes hi lo) with
    | .ok i => .ok (i, rest)
    | .error e => .error e
  | _ => .error .truncated

/-- Formats of R82. -/
def formA (op : Nibble) (nnn : Addr12) : Word := op ++ nnn
def formXK (op x : Nibble) (kk : Byte) : Word := (op ++ x : Byte) ++ kk
def formXYN (op x y n : Nibble) : Word := (op ++ x : Byte) ++ (y ++ n : Byte)

/-- The word of an instruction (R86), with 0 in the ignored bits (R89). `LD Vx, ST` has one only while
`ST_READ_LOW` is present; on a machine without it `LD Vx, ST` is not well-formed and is given the byte 0. -/
def encode (c : Config) (i : Instr) : Word :=
  match i with
  | .cls => 0x00E0
  | .ret => 0x00EE
  | .jp nnn => formA 0x1 nnn
  | .call nnn => formA 0x2 nnn
  | .seImm x kk => formXK 0x3 x kk
  | .sneImm x kk => formXK 0x4 x kk
  | .seReg x y => formXYN 0x5 x y 0x0
  | .ldImm x kk => formXK 0x6 x kk
  | .addImm x kk => formXK 0x7 x kk
  | .ldReg x y => formXYN 0x8 x y 0x0
  | .orReg x y => formXYN 0x8 x y 0x1
  | .andReg x y => formXYN 0x8 x y 0x2
  | .xorReg x y => formXYN 0x8 x y 0x3
  | .addReg x y => formXYN 0x8 x y 0x4
  | .subReg x y => formXYN 0x8 x y 0x5
  | .shr x => formXYN 0x8 x 0x0 0x6
  | .subnReg x y => formXYN 0x8 x y 0x7
  | .shl x => formXYN 0x8 x 0x0 0xE
  | .sneReg x y => formXYN 0x9 x y 0x0
  | .ldI nnn => formA 0xA nnn
  | .rnd x kk => formXK 0xC x kk
  | .drw x y n => formXYN 0xD x y n
  | .skp x => formXK 0xE x 0x9E
  | .sknp x => formXK 0xE x 0xA1
  | .ldVxDt x => formXK 0xF x 0x07
  | .ldVxSt x => formXK 0xF x (c.stReadLow.getD 0)
  | .ldVxK x => formXK 0xF x 0x0A
  | .ldDtVx x => formXK 0xF x 0x15
  | .ldStVx x => formXK 0xF x 0x18
  | .addI x => formXK 0xF x 0x1E
  | .ldF x => formXK 0xF x 0x29
  | .ldB x => formXK 0xF x 0x33
  | .storeRegs x => formXK 0xF x 0x55
  | .loadRegs x => formXK 0xF x 0x65

/-- The `(match, mask)` pair of an instruction's row in R86 and opcode_table.json. The row of `LD Vx, ST` is printed
there for the default `ST_READ_LOW`; here it follows the parameter. -/
def rowOf (c : Config) (i : Instr) : Word × Word :=
  match i with
  | .cls => (0x00E0, 0xFFFF)
  | .ret => (0x00EE, 0xFFFF)
  | .jp _ => (0x1000, 0xF000)
  | .call _ => (0x2000, 0xF000)
  | .seImm _ _ => (0x3000, 0xF000)
  | .sneImm _ _ => (0x4000, 0xF000)
  | .seReg _ _ => (0x5000, 0xF000)
  | .ldImm _ _ => (0x6000, 0xF000)
  | .addImm _ _ => (0x7000, 0xF000)
  | .ldReg _ _ => (0x8000, 0xF00F)
  | .orReg _ _ => (0x8001, 0xF00F)
  | .andReg _ _ => (0x8002, 0xF00F)
  | .xorReg _ _ => (0x8003, 0xF00F)
  | .addReg _ _ => (0x8004, 0xF00F)
  | .subReg _ _ => (0x8005, 0xF00F)
  | .shr _ => (0x8006, 0xF00F)
  | .subnReg _ _ => (0x8007, 0xF00F)
  | .shl _ => (0x800E, 0xF00F)
  | .sneReg _ _ => (0x9000, 0xF000)
  | .ldI _ => (0xA000, 0xF000)
  | .rnd _ _ => (0xC000, 0xF000)
  | .drw _ _ _ => (0xD000, 0xF000)
  | .skp _ => (0xE09E, 0xF0FF)
  | .sknp _ => (0xE0A1, 0xF0FF)
  | .ldVxDt _ => (0xF007, 0xF0FF)
  | .ldVxSt _ => (0xF000 ||| (c.stReadLow.getD 0).setWidth 16, 0xF0FF)
  | .ldVxK _ => (0xF00A, 0xF0FF)
  | .ldDtVx _ => (0xF015, 0xF0FF)
  | .ldStVx _ => (0xF018, 0xF0FF)
  | .addI _ => (0xF01E, 0xF0FF)
  | .ldF _ => (0xF029, 0xF0FF)
  | .ldB _ => (0xF033, 0xF0FF)
  | .storeRegs _ => (0xF055, 0xF0FF)
  | .loadRegs _ => (0xF065, 0xF0FF)

/-- A word matches an instruction's row: `w & mask = match` (R86, R96). -/
abbrev MatchesRow (c : Config) (i : Instr) (w : Word) : Prop := w &&& (rowOf c i).2 = (rowOf c i).1

/-- The bits of an instruction's word that decoding ignores (R89): `n` in families 5 and 9, `y` in the shifts. -/
def ignoredBits (i : Instr) : Word :=
  match i with
  | .seReg _ _ | .sneReg _ _ => 0x000F
  | .shr _ | .shl _ => 0x00F0
  | .cls | .ret | .jp _ | .call _ | .seImm _ _ | .sneImm _ _ | .ldImm _ _ | .addImm _ _ | .ldReg _ _ => 0
  | .orReg _ _ | .andReg _ _ | .xorReg _ _ | .addReg _ _ | .subReg _ _ | .subnReg _ _ | .ldI _ => 0
  | .rnd _ _ | .drw _ _ _ | .skp _ | .sknp _ | .ldVxDt _ | .ldVxSt _ | .ldVxK _ | .ldDtVx _ | .ldStVx _ => 0
  | .addI _ | .ldF _ | .ldB _ | .storeRegs _ | .loadRegs _ => 0

/-- The bytes of an opcode-table row's word, in memory order: the table numbers the bits of the one 16-bit word, so
its high byte is first (20_memory.md R54); bits from `nbits` up are 0. -/
def tableBytes (nbits w : Nat) : List Byte := bytesOfWord (BitVec.ofNat 16 (w % 2 ^ nbits))

/-- The instruction the decoder reads from a table word, with the default parameters, under which the table is
printed (R86, R96). -/
def decodeTableWord (nbits w : Nat) : Option Instr :=
  match decodeBytes Config.default (tableBytes nbits w) with
  | .ok (i, _) => some i
  | .error _ => none

end Sys2Proof
end

