-- ==== Sys2Proof/Machine/State.lean ====
section
/-! DEFINITION. The machine's state (10_state.md R20), the ways an operation can fail (60_exceptions.md R260), and
the state after reset (10_state.md R38). -/

namespace Sys2Proof.Machine

/-- The six errors of R260, with the payloads of R262. An error is REPORTED to the host and changes no state (R268);
there is no vector, handler or saved register (R269), so reporting it is all that "taking" it means. Every one is the
spec's own, so stopping on it is safe. -/
inductive Fault where
  /-- Raised by `load` of more than 3584 bytes (49_host_operations.md R238); `len` is the length. Safe. -/
  | loadError (len : Nat)
  /-- Raised by the fetch, the four memory instructions and the host's memory accessor on an address above 4095
  (R265); `addr` is the lowest such address of the access (20_memory.md R60). Safe. -/
  | memoryAccess (addr : Nat)
  /-- Raised by `CALL` with a full stack (41_control_flow.md R133). Safe. -/
  | stackOverflow
  /-- Raised by `RET` with an empty stack (41_control_flow.md R131). Safe. -/
  | stackUnderflow
  /-- Raised by `tick` on an unassigned word `w` (30_encoding.md R87). Safe. -/
  | decodeError (w : Word)
  /-- Raised by `set_key` with a code above 15 (49_host_operations.md R243). Safe. -/
  | invalidKeyCode (code : Nat)
  deriving DecidableEq, Repr

/-- Reasons to give an instruction no meaning. No arm of `exec` uses one: every instruction has its meaning. -/
inductive Refusal where
  /-- Raised by an arm of `exec` whose instruction has no meaning yet. Safe. -/
  | notModelled (mnemonic : String)
  deriving DecidableEq, Repr

/-- Memory cells that differ from their reset content, sorted by address (log entry 26). -/
abbrev Memory := List Host.Cell

/-- The display: row `r` is a mask whose bit `63 - c` is column `c` (10_state.md R32, 49_host_operations.md R246). -/
abbrev Display := Vector (BitVec 64) 32

/-- The state tuple of 10_state.md R20, and two fields of the model's own (`cfg`, `draws`). -/
structure State where
  /-- The parameters of 00_scope.md R7, changed by nothing (10_state.md R35 (b)). The model's own field. -/
  cfg : Config
  /-- `MEM` (R36). -/
  mem : Memory
  /-- `V[0..15]`; `V[15]` is VF (R21, R22). -/
  v : Vector Byte 16
  /-- `I` (R23). -/
  idx : Word
  /-- `PC` (R24). -/
  pc : Word
  /-- The live entries of `STACK`, most recent first; `SP` is the length (R28). -/
  stack : List Word
  /-- `DT` (R29). -/
  dt : Byte
  /-- `ST` (R30). -/
  st : Byte
  /-- `DISP` (R32). -/
  disp : Display
  /-- `KEY[0..15]`, true for pressed (R33). -/
  keys : Vector Bool 16
  /-- `WAIT` (R34). -/
  wait : Bool
  /-- `WAITX` (R34). -/
  waitX : Nibble
  /-- How many bytes `RND` has drawn: the argument of the free value `Config.rand8`. The model's own field. -/
  draws : Nat
  deriving DecidableEq, Repr

/-- The state after `create` (R38, 49_host_operations.md R236) on a machine with parameters `c`. `V`, `I`, `KEY`,
`WAIT`, `WAITX` are the spec's decision D24 (log entry 3). -/
def State.fresh (c : Config) : State where
  cfg := c
  mem := []
  v := Vector.replicate 16 0
  idx := 0
  pc := 0x200
  stack := []
  dt := 0
  st := 0
  disp := Vector.replicate 32 0
  keys := Vector.replicate 16 false
  wait := false
  waitX := 0
  draws := 0

/-- The machine right after reset, with the default parameters (log entry 1). -/
def State.reset : State := State.fresh Config.default

end Sys2Proof.Machine
end

