-- ==== Sys2Proof/Machine/Ops.lean ====
section
/-! DEFINITION. The named operations over memory, registers, the program counter, the call stack and the key latch,
and raising an error. Every access of an instruction goes through one of these. -/

namespace Sys2Proof.Machine

/-! ### Raising an error -/

/-- `raise E` (00_scope.md R10, 60_exceptions.md R268): the operation ends with the error and no state is changed.
There is no entry to a handler (R269) and no return from one (R270). -/
def raise (f : Fault) : Host.Outcome State Fault Refusal := .fault f

/-- Go on with the value of a checked operation, or raise its error. -/
def orRaise {α : Type} (r : Except Fault α) (k : α → State) : Host.Outcome State Fault Refusal :=
  match r with
  | .ok a => .next (k a)
  | .error f => raise f

/-! ### Memory (20_memory.md) -/

/-- What an address that nothing has written reads as: the font at `FONT_BASE`, 0 elsewhere (10_state.md R36). -/
def defaultByte (c : Config) (a : Nat) : Byte :=
  if c.fontBase ≤ a then (c.font[a - c.fontBase]?).getD 0 else 0

/-- The listed byte at an address, or `dflt`. -/
def Memory.find (m : Memory) (a : Nat) (dflt : Byte) : Byte :=
  match m with
  | [] => dflt
  | (k, b) :: t => if k = a then b else Memory.find t a dflt

/-- Take every entry for an address out. -/
def Memory.erase (m : Memory) (a : Nat) : Memory := m.filter (fun c => c.1 != a)

/-- Put an entry before the first one with a higher address. -/
def Memory.insert (m : Memory) (a : Nat) (b : Byte) : Memory :=
  match m with
  | [] => [(a, b)]
  | (k, v) :: t => if a < k then (a, b) :: (k, v) :: t else (k, v) :: Memory.insert t a b

/-- Canonical form from address `lo` up: addresses strictly rising and below 4096, no entry equal to its default. -/
def Memory.wfFrom (c : Config) (lo : Nat) (m : Memory) : Bool :=
  match m with
  | [] => true
  | (a, b) :: t => decide (lo ≤ a) && decide (a < memSize) && (b != defaultByte c a) && Memory.wfFrom c (a + 1) t

/-- The canonical form of memory: equal contents are equal lists. -/
def Memory.wf (c : Config) (m : Memory) : Bool := Memory.wfFrom c 0 m

/-- The byte at `a`, unchecked. -/
def State.byteAt (s : State) (a : Nat) : Byte := Memory.find s.mem a (defaultByte s.cfg a)

/-- `MEM[a] <- b`, unchecked; writing the default byte takes the entry out. -/
def State.setByte (s : State) (a : Nat) (b : Byte) : State :=
  let m := Memory.erase s.mem a
  { s with mem := if b = defaultByte s.cfg a then m else Memory.insert m a b }

/-- `MemRead(addr, 1)` (R52). -/
def State.memRead (s : State) (a : Nat) : Except Fault Byte :=
  if a < memSize then .ok (s.byteAt a) else .error (.memoryAccess a)

/-- `MemWrite(addr, 1, v)` (R53). -/
def State.memWrite (s : State) (a : Nat) (b : Byte) : Except Fault State :=
  if a < memSize then .ok (s.setByte a b) else .error (.memoryAccess a)

/-- The check of a range of `n` addresses from `a`, made before its first access (R60): the lowest address out of
bounds is reported; an empty range cannot fault. -/
def rangeFault (a n : Nat) : Option Fault :=
  if n = 0 ∨ a + n ≤ memSize then none else some (.memoryAccess (max a memSize))

/-- The `n` bytes from `a` up, unchecked. -/
def State.bytesAt (s : State) (a : Nat) (n : Nat) : List Byte := (List.range n).map (fun k => s.byteAt (a + k))

/-- Write bytes at ascending addresses from `a` (R57), unchecked. -/
def State.setBytes (s : State) (a : Nat) (bs : List Byte) : State :=
  match bs with
  | [] => s
  | b :: t => State.setBytes (s.setByte a b) (a + 1) t

/-- Read a range, all or nothing (R60). -/
def State.loadRange (s : State) (a n : Nat) : Except Fault (List Byte) :=
  match rangeFault a n with
  | some f => .error f
  | none => .ok (s.bytesAt a n)

/-- Write a range, all or nothing (R60). -/
def State.storeRange (s : State) (a : Nat) (bs : List Byte) : Except Fault State :=
  match rangeFault a bs.length with
  | some f => .error f
  | none => .ok (s.setBytes a bs)

/-! ### Registers (10_state.md R21 to R23) -/

/-- `V[x]`. No register is hardwired (R21). -/
def State.getV (s : State) (x : Nibble) : Byte := s.v[x.toNat]'x.isLt

/-- `V[x] <- b`. -/
def State.setV (s : State) (x : Nibble) (b : Byte) : State := { s with v := s.v.set x.toNat b x.isLt }

/-- `V[0xF]`, the flag output (R22). -/
def vf : Nibble := 0xF

/-- `V[k], V[k+1], ...` receive the bytes in turn, as far as there are registers. -/
def State.setBank (s : State) (k : Nat) (bs : List Byte) : State :=
  match bs with
  | [] => s
  | b :: t => State.setBank { s with v := s.v.setIfInBounds k b } (k + 1) t

/-- `I <- w`. -/
def State.setI (s : State) (w : Word) : State := { s with idx := w }

/-! ### The program counter (10_state.md R24, R25) -/

/-- `pc <- target`. -/
def State.jump (s : State) (w : Word) : State := { s with pc := w }

/-- `pc <- pc + 2` (40_instruction_cycle.md R115). -/
def State.advance (s : State) : State := s.jump (s.pc + 2)

/-- A skip: `pc <- pc + 4` if the condition holds, else `pc + 2`; the skipped word is not fetched (R121). -/
def State.skipIf (s : State) (b : Bool) : State := s.jump (if b then s.pc + 4 else s.pc + 2)

/-! ### The call stack (10_state.md R28) -/

/-- `SP`: the number of live entries. -/
def State.sp (s : State) : Nat := s.stack.length

/-- `STACK[k]` for a live entry, `STACK[SP - 1]` the most recent. -/
def State.stackEntry (s : State) (k : Nat) : Option Word := s.stack.reverse[k]?

/-- Push: requires `SP < STACK_DEPTH`, else StackOverflow. -/
def State.push (s : State) (w : Word) : Except Fault State :=
  if s.sp < s.cfg.stackDepth then .ok { s with stack := w :: s.stack } else .error .stackOverflow

/-- Pop: requires `SP > 0`, else StackUnderflow; the popped entry and the state without it. -/
def State.pop (s : State) : Except Fault (Word × State) :=
  match s.stack with
  | [] => .error .stackUnderflow
  | w :: t => .ok (w, { s with stack := t })

/-! ### The key latch and the key wait (10_state.md R33, R34; 46_key_wait.md) -/

/-- `KEY[k] = 1`. -/
def State.keyPressed (s : State) (k : Nibble) : Bool := s.keys[k.toNat]'k.isLt

/-- The 16 key codes in ascending order. -/
def keyCodes : List Nibble := [0x0, 0x1, 0x2, 0x3, 0x4, 0x5, 0x6, 0x7, 0x8, 0x9, 0xA, 0xB, 0xC, 0xD, 0xE, 0xF]

/-- `KEY_PICK(P)` of the set `P` of pressed keys, none if it is empty: the lowest code (R208, log entry 6). -/
def State.keyPick (s : State) : Option Nibble := keyCodes.find? s.keyPressed

/-- A key code as stored in a register: zero-extended to 8 bits (R205). -/
def keyByte (k : Nibble) : Byte := k.setWidth 8

/-- One poll for the wait of register `x`: the state with the key stored and `PC` advanced, none if no key is down. -/
def State.pollInto (s : State) (x : Nibble) : Option State :=
  s.keyPick.map (fun k => (s.setV x (keyByte k)).advance)

/-! ### The random byte (44_random_keys.md R185) -/

/-- `rand8()`: the free byte of this draw, and the state whose next draw is a fresh one. -/
def State.draw (s : State) : Byte × State := (Config.rand8 s.draws, { s with draws := s.draws + 1 })

end Sys2Proof.Machine
end

