-- ==== Sys2Proof/Machine/Cycle.lean ====
section
/-! DEFINITION. 40_instruction_cycle.md: the fetch and decode of a tick, and where a program word is placed. -/

namespace Sys2Proof.Machine

/-- The fetch (20_memory.md R55, 40_instruction_cycle.md R112): two bytes at `PC`, big-endian, any parity. -/
def State.fetch (s : State) : Except Fault Word :=
  let p := s.pc.toNat
  if p ≥ 0xFFF then .error (.memoryAccess (max p memSize))
  else .ok (wordOfBytes (s.byteAt p) (s.byteAt (p + 1)))

/-- Decode a fetched word (R113): an instruction or DecodeError. -/
def State.decoded (s : State) (w : Word) : Except Fault Instr :=
  match decodeWord s.cfg w with
  | .ok i => .ok i
  | .error _ => .error (.decodeError w)

/-- Fetch and decode, in this order (R120). -/
def State.fetchInstr (s : State) : Except Fault Instr :=
  match s.fetch with
  | .error f => .error f
  | .ok w => s.decoded w

/-- The state made ready to fetch: not waiting, and with a `PC` whose two bytes are in memory (log entry 27). -/
def State.readyToFetch (s : State) : State :=
  { s with wait := false, pc := if s.pc.toNat ≥ 0xFFF then BitVec.ofNat 16 progBase else s.pc }

/-- Place the bytes of an instruction at `PC`. -/
def State.placeAtPc (s : State) (bs : List Byte) : State := s.setBytes s.pc.toNat bs

end Sys2Proof.Machine
end

