-- ==== Sys2Proof/Machine/Flags.lean ====
section
/-! DEFINITION. The flag computations: VF is the only flag, and each of the six instructions of 10_state.md R22
writes it with 0 or 1. -/

namespace Sys2Proof.Machine

/-- A flag as the 8-bit value 0x00 or 0x01 (R22). -/
def flagByte (b : Bool) : Byte := if b then 1 else 0

/-- Carry: the unsigned sum exceeds 255 (42_arithmetic.md R157). -/
def carry (a b : Byte) : Bool := decide (a.toNat + b.toNat > 255)

/-- No borrow of `a - b`: minuend at least subtrahend (R158, R160). -/
def noBorrow (a b : Byte) : Bool := decide (a.toNat ≥ b.toNat)

/-- The bit a right shift by one loses: bit 0 (R159). -/
def shiftedOutRight (a : Byte) : Bool := a.getLsbD 0

/-- The bit a left shift by one loses: bit 7 (R161). -/
def shiftedOutLeft (a : Byte) : Bool := a.getLsbD 7

/-- Write a result to `V[x]` and then a flag to VF: the flag stays when `x` is F (R156, log entry 8). -/
def State.setVFlag (s : State) (x : Nibble) (r : Byte) (f : Bool) : State := (s.setV x r).setV vf (flagByte f)

end Sys2Proof.Machine
end

