-- ==== Sys2Proof/Machine/Arith.lean ====
section
/-! DEFINITION. 42_arithmetic.md: register and immediate arithmetic on 8-bit values modulo 256. Operands are read
from the state before the instruction (R156). -/

namespace Sys2Proof.Machine

/-- `LD Vx, kk` (R150). -/
def execLdImm (x : Nibble) (kk : Byte) (s : State) : Host.Outcome State Fault Refusal := .next (s.setV x kk).advance

/-- `ADD Vx, kk` (R151): no flag. -/
def execAddImm (x : Nibble) (kk : Byte) (s : State) : Host.Outcome State Fault Refusal :=
  .next (s.setV x (s.getV x + kk)).advance

/-- `LD Vx, Vy` (R152). -/
def execLdReg (x y : Nibble) (s : State) : Host.Outcome State Fault Refusal := .next (s.setV x (s.getV y)).advance

/-- `OR Vx, Vy` (R153): no flag. -/
def execOrReg (x y : Nibble) (s : State) : Host.Outcome State Fault Refusal :=
  .next (s.setV x (s.getV x ||| s.getV y)).advance

/-- `AND Vx, Vy` (R154): no flag. -/
def execAndReg (x y : Nibble) (s : State) : Host.Outcome State Fault Refusal :=
  .next (s.setV x (s.getV x &&& s.getV y)).advance

/-- `XOR Vx, Vy` (R155): no flag. -/
def execXorReg (x y : Nibble) (s : State) : Host.Outcome State Fault Refusal :=
  .next (s.setV x (s.getV x ^^^ s.getV y)).advance

/-- `ADD Vx, Vy` (R157): VF is the carry. -/
def execAddReg (x y : Nibble) (s : State) : Host.Outcome State Fault Refusal :=
  let a := s.getV x
  let b := s.getV y
  .next (s.setVFlag x (a + b) (carry a b)).advance

/-- `SUB Vx, Vy` (R158): `Vx - Vy`, VF is no-borrow. -/
def execSubReg (x y : Nibble) (s : State) : Host.Outcome State Fault Refusal :=
  let a := s.getV x
  let b := s.getV y
  .next (s.setVFlag x (a - b) (noBorrow a b)).advance

/-- `SHR Vx` (R159): logical, in place; the other register field is ignored (log entry 9). -/
def execShr (x : Nibble) (s : State) : Host.Outcome State Fault Refusal :=
  let a := s.getV x
  .next (s.setVFlag x (a >>> 1) (shiftedOutRight a)).advance

/-- `SUBN Vx, Vy` (R160): `Vy - Vx`, VF is no-borrow. -/
def execSubnReg (x y : Nibble) (s : State) : Host.Outcome State Fault Refusal :=
  let a := s.getV x
  let b := s.getV y
  .next (s.setVFlag x (b - a) (noBorrow b a)).advance

/-- `SHL Vx` (R161): in place; the other register field is ignored (log entry 9). -/
def execShl (x : Nibble) (s : State) : Host.Outcome State Fault Refusal :=
  let a := s.getV x
  .next (s.setVFlag x (a <<< 1) (shiftedOutLeft a)).advance

end Sys2Proof.Machine
end

