-- ==== Sys2Proof/Machine/Operands.lean ====
section
/-! DEFINITION. The operand forms: immediates, effective addresses, glyph addresses, digits, sprite positions and
sprite masks. -/

namespace Sys2Proof.Machine

/-- `zext_16(nnn)` (30_encoding.md R83). -/
def zextAddr (nnn : Addr12) : Word := nnn.setWidth 16

/-- `zext_16(V[x])` (43_index_memory.md R171). -/
def zextByte (b : Byte) : Word := b.setWidth 16

/-- The low nibble of a register's value: a key code or a digit (44_random_keys.md R186, 43_index_memory.md R172). -/
def lowNibble (b : Byte) : Nibble := b.extractLsb' 0 4

/-- The effective address `I + k`, a natural that is never reduced (20_memory.md R59). -/
def State.ea (s : State) (k : Nat) : Nat := s.idx.toNat + k

/-- `FONT_BASE + 5 * d` (43_index_memory.md R172). -/
def glyphAddr (c : Config) (d : Nibble) : Word := BitVec.ofNat 16 (c.fontBase + 5 * d.toNat)

/-- The register bank `V[0..x]`, `V[0]` first (43_index_memory.md R173). -/
def State.bank (s : State) (x : Nibble) : List Byte := s.v.toList.take (x.toNat + 1)

/-- The three decimal digits, hundreds first (48_bcd.md R230, D16). -/
def digits (b : Byte) : List Byte :=
  [BitVec.ofNat 8 (b.toNat / 100), BitVec.ofNat 8 (b.toNat / 10 % 10), BitVec.ofNat 8 (b.toNat % 10)]

/-- The start column `V[x] mod 64` (47_draw.md R216, R217 (a)). -/
def startCol (b : Byte) : Nat := b.toNat % 64

/-- The start row `V[y] mod 32` (47_draw.md R216, R217 (a)). -/
def startRow (b : Byte) : Nat := b.toNat % 32

/-- A sprite row as a mask over a display row: its bit 7 falls on column `x0` and it wraps at column 63 (R215,
R217 (b)). In a mask column 0 is the most significant bit. -/
def spriteMask (x0 : Nat) (b : Byte) : BitVec 64 := (b ++ (0 : BitVec 56)).rotateRight x0

/-- `DISP[r][c]`. -/
def Display.pixel (d : Display) (r c : Nat) : Bool := ((d[r]?).getD 0).getMsbD c

/-- XOR the sprite rows onto display rows `r0, r0 + 1, ...` at column `x0`; rows past 31 are clipped (R216 to R218).
The Bool says whether a pixel went from set to unset. -/
def blit (d : Display) (x0 : Nat) (r0 : Nat) (rows : List Byte) : Display × Bool :=
  match rows with
  | [] => (d, false)
  | b :: t =>
    if h : r0 < 32 then
      let m := spriteMask x0 b
      let hit := d[r0] &&& m != 0
      let (d', c) := blit (d.set r0 (d[r0] ^^^ m)) x0 (r0 + 1) t
      (d', hit || c)
    else (d, false)

/-- `clear()`: all pixels 0 (47_draw.md R219). -/
def blankDisplay : Display := Vector.replicate 32 0

end Sys2Proof.Machine
end

