-- ==== Sys2Proof/Machine/Bcd.lean ====
section
/-! DEFINITION. 48_bcd.md: the decimal store. -/

namespace Sys2Proof.Machine

/-- `LD B, Vx` (R230): the digits of `V[x]` at `I`, `I+1`, `I+2`, all or nothing. -/
def execLdB (x : Nibble) (s : State) : Host.Outcome State Fault Refusal :=
  orRaise (s.storeRange (s.ea 0) (digits (s.getV x))) (fun s' => s'.advance)

end Sys2Proof.Machine
end

