-- ==== Sys2Proof/Machine/Control.lean ====
section
/-! DEFINITION. 41_control_flow.md: CLS, RET, JP, CALL, SE, SNE. In every meaning `s.pc` is the address of the
instruction being executed (40_instruction_cycle.md R112). -/

namespace Sys2Proof.Machine

/-- `CLS` (R130). -/
def execCls (s : State) : Host.Outcome State Fault Refusal := .next { s with disp := blankDisplay }.advance

/-- `RET` (R131): `PC` becomes exactly the popped entry. -/
def execRet (s : State) : Host.Outcome State Fault Refusal := orRaise s.pop (fun (t, s') => s'.jump t)

/-- `JP nnn` (R132). -/
def execJp (nnn : Addr12) (s : State) : Host.Outcome State Fault Refusal := .next (s.jump (zextAddr nnn))

/-- `CALL nnn` (R133): the return address `pc + 2` is pushed (log entry 16). -/
def execCall (nnn : Addr12) (s : State) : Host.Outcome State Fault Refusal :=
  orRaise (s.push (s.pc + 2)) (fun s' => s'.jump (zextAddr nnn))

/-- `SE Vx, kk` (R134). -/
def execSeImm (x : Nibble) (kk : Byte) (s : State) : Host.Outcome State Fault Refusal :=
  .next (s.skipIf (s.getV x == kk))

/-- `SNE Vx, kk` (R135). -/
def execSneImm (x : Nibble) (kk : Byte) (s : State) : Host.Outcome State Fault Refusal :=
  .next (s.skipIf (s.getV x != kk))

/-- `SE Vx, Vy` (R136). -/
def execSeReg (x y : Nibble) (s : State) : Host.Outcome State Fault Refusal := .next (s.skipIf (s.getV x == s.getV y))

/-- `SNE Vx, Vy` (R137). -/
def execSneReg (x y : Nibble) (s : State) : Host.Outcome State Fault Refusal := .next (s.skipIf (s.getV x != s.getV y))

end Sys2Proof.Machine
end

