-- ==== Sys2Proof/Machine/Draw.lean ====
section
/-! DEFINITION. 47_draw.md: the sprite draw. -/

namespace Sys2Proof.Machine

/-- `DRW Vx, Vy, n` (R216): all `n` row bytes are checked and read first, clipped ones too (log entry 14); the
position is read before VF is written (R222). -/
def execDrw (x y n : Nibble) (s : State) : Host.Outcome State Fault Refusal :=
  orRaise (s.loadRange (s.ea 0) n.toNat) (fun rows =>
    let (d, collision) := blit s.disp (startCol (s.getV x)) (startRow (s.getV y)) rows
    ({ s with disp := d }.setV vf (flagByte collision)).advance)

end Sys2Proof.Machine
end

