-- ==== Sys2Proof/Machine/Index.lean ====
section
/-! DEFINITION. 43_index_memory.md: the index register and the register-bank transfers. `I` is unchanged by the
transfers (log entry 10). -/

namespace Sys2Proof.Machine

/-- `LD I, nnn` (R170). -/
def execLdI (nnn : Addr12) (s : State) : Host.Outcome State Fault Refusal := .next (s.setI (zextAddr nnn)).advance

/-- `ADD I, Vx` (R171): modulo 65536, no flag, no bound check. -/
def execAddI (x : Nibble) (s : State) : Host.Outcome State Fault Refusal :=
  .next (s.setI (s.idx + zextByte (s.getV x))).advance

/-- `LD F, Vx` (R172): the high nibble of `V[x]` is ignored; no memory is read. -/
def execLdF (x : Nibble) (s : State) : Host.Outcome State Fault Refusal :=
  .next (s.setI (glyphAddr s.cfg (lowNibble (s.getV x)))).advance

/-- `LD [I], Vx` (R173): `V[0..x]` to `I, I+1, ...`, all or nothing. -/
def execStoreRegs (x : Nibble) (s : State) : Host.Outcome State Fault Refusal :=
  orRaise (s.storeRange (s.ea 0) (s.bank x)) (fun s' => s'.advance)

/-- `LD Vx, [I]` (R174): `V[0..x]` from `I, I+1, ...`, all or nothing. -/
def execLoadRegs (x : Nibble) (s : State) : Host.Outcome State Fault Refusal :=
  orRaise (s.loadRange (s.ea 0) (x.toNat + 1)) (fun bs => (s.setBank 0 bs).advance)

end Sys2Proof.Machine
end

