-- ==== Sys2Proof/Machine/KeyWait.lean ====
section
/-! DEFINITION. 46_key_wait.md: the blocking key wait, the tick that fetches it and the ticks that wait. -/

namespace Sys2Proof.Machine

/-- `LD Vx, K` (R205): poll at once; with no key down the machine starts to wait and `PC` stays. -/
def execLdVxK (x : Nibble) (s : State) : Host.Outcome State Fault Refusal :=
  match s.pollInto x with
  | some s' => .next s'
  | none => .next { s with wait := true, waitX := x }

/-- A tick that starts with `WAIT = 1` (R207, 40_instruction_cycle.md R111): one poll, no fetch. -/
def State.waitTick (s : State) : State :=
  match s.pollInto s.waitX with
  | some s' => { s' with wait := false }
  | none => s

end Sys2Proof.Machine
end

