-- ==== Sys2Proof/Machine/RandomKeys.lean ====
section
/-! DEFINITION. 44_random_keys.md: the random byte and the skips by key. -/

namespace Sys2Proof.Machine

/-- `RND Vx, kk` (R185): a free byte masked by `kk` (log entry 2). -/
def execRnd (x : Nibble) (kk : Byte) (s : State) : Host.Outcome State Fault Refusal :=
  let (r, s') := s.draw
  .next (s'.setV x (r &&& kk)).advance

/-- `SKP Vx` (R186): the key is the low nibble of `V[x]`. -/
def execSkp (x : Nibble) (s : State) : Host.Outcome State Fault Refusal :=
  .next (s.skipIf (s.keyPressed (lowNibble (s.getV x))))

/-- `SKNP Vx` (R187). -/
def execSknp (x : Nibble) (s : State) : Host.Outcome State Fault Refusal :=
  .next (s.skipIf (!s.keyPressed (lowNibble (s.getV x))))

end Sys2Proof.Machine
end

