-- ==== Sys2Proof/Machine/Timers.lean ====
section
/-! DEFINITION. 45_timers.md: reading and setting the timers. No instruction decrements one (R199). -/

namespace Sys2Proof.Machine

/-- `LD Vx, DT` (R195). -/
def execLdVxDt (x : Nibble) (s : State) : Host.Outcome State Fault Refusal := .next (s.setV x s.dt).advance

/-- `LD Vx, ST` (R196). -/
def execLdVxSt (x : Nibble) (s : State) : Host.Outcome State Fault Refusal := .next (s.setV x s.st).advance

/-- `LD DT, Vx` (R197). -/
def execLdDtVx (x : Nibble) (s : State) : Host.Outcome State Fault Refusal := .next { s with dt := s.getV x }.advance

/-- `LD ST, Vx` (R198). -/
def execLdStVx (x : Nibble) (s : State) : Host.Outcome State Fault Refusal := .next { s with st := s.getV x }.advance

end Sys2Proof.Machine
end

