-- ==== Sys2Proof/Machine/Step.lean ====
section
/-! DEFINITION. `tick`, the one step of the core (40_instruction_cycle.md R117), and the host's way to place one
instruction. -/

namespace Sys2Proof.Machine

/-- `tick` (R117): the wait check, then fetch, decode and execute. Its outcome is a next state or one of the errors of
60_exceptions.md R261; the word it returns to the caller is `State.tickResult` of HostOps.lean. -/
def step (s : State) : Host.Outcome State Fault Refusal :=
  if s.wait then .next s.waitTick
  else
    match s.fetchInstr with
    | .error f => raise f
    | .ok i => exec i s

/-- `s` with the instruction whose opcode-table bits are `w` stored where `step` fetches next (log entry 27). -/
def State.withFetchWord (s : State) (nbits w : Nat) : State := s.readyToFetch.placeAtPc (tableBytes nbits w)

end Sys2Proof.Machine
end

