-- ==== Sys2Proof/Machine/HostOps.lean ====
section
/-! DEFINITION. 49_host_operations.md: the operations of the host on the block, their results, and the read-only
accessors. The behaviour over time is a sequence of operations in an order the host chooses (R235, log entry 28). -/

namespace Sys2Proof.Machine

/-- The operations of R235. -/
inductive HostOp where
  /-- `create()`, the reset (R236). -/
  | create
  /-- `load(bytes)` (R238). -/
  | load (bytes : List Byte)
  /-- `tick()` (R240). -/
  | tick
  /-- `decrement_timers()` (R241). -/
  | decrementTimers
  /-- `set_key(code, pressed)` (R243). -/
  | setKey (code : Nat) (pressed : Bool)
  deriving DecidableEq, Repr

/-- What an operation reports (00_scope.md R11, 40_instruction_cycle.md R116). -/
inductive Result where
  /-- A tick executed the instruction with word `w`. -/
  | executed (w : Word)
  /-- A tick that began with `WAIT = 1`: the caller sees the sentinel word 0. -/
  | idle
  /-- Another operation completed. -/
  | done
  /-- The operation reported an error and changed nothing. -/
  | fault (f : Fault)
  /-- The model gives the instruction no meaning: this never happens. -/
  | refused (r : Refusal)
  deriving DecidableEq, Repr

/-- `create()` (R236, R237): every field of the spec at its reset value, in any state. The parameters stay, and the
next random byte is still a fresh one (log entry 30). -/
def State.create (s : State) : State := { State.fresh s.cfg with draws := s.draws }

/-- `load(bytes)` (R238): the image at 0x200, all or nothing, and nothing else. -/
def hostLoad (bytes : List Byte) (s : State) : Host.Outcome State Fault Refusal :=
  if bytes.length > progMax then raise (.loadError bytes.length) else .next (s.setBytes progBase bytes)

/-- One timer down by one, not below 0 (R241). -/
def countDown (b : Byte) : Byte := if b = 0 then 0 else b - 1

/-- `decrement_timers()` (R241). -/
def State.decrementTimers (s : State) : State := { s with dt := countDown s.dt, st := countDown s.st }

/-- `set_key(code, pressed)` (R243): one latch bit. -/
def hostSetKey (code : Nat) (pressed : Bool) (s : State) : Host.Outcome State Fault Refusal :=
  if h : code < 16 then .next { s with keys := s.keys.set code pressed h } else raise (.invalidKeyCode code)

/-- One operation of the block (R235). -/
def perform (op : HostOp) (s : State) : Host.Outcome State Fault Refusal :=
  match op with
  | .create => .next s.create
  | .load bytes => hostLoad bytes s
  | .tick => step s
  | .decrementTimers => .next s.decrementTimers
  | .setKey code pressed => hostSetKey code pressed s

/-- The result of an operation that completed (R116: `Idle` for every tick that began waiting, else the word). -/
def completion (op : HostOp) (s : State) : Result :=
  match op with
  | .tick =>
    if s.wait then .idle
    else
      match s.fetch with
      | .ok w => .executed w
      | .error f => .fault f
  | .create | .load _ | .decrementTimers | .setKey _ _ => .done

/-- An operation as the host sees it: its result and the state after it. An error leaves the state as it was
(60_exceptions.md R268); the host may go on as it likes (R270). -/
def respond (op : HostOp) (s : State) : Result × State :=
  match perform op s with
  | .next t => (completion op s, t)
  | .fault f => (.fault f, s)
  | .refused r => (.refused r, s)

/-- The result of `tick()` in a state. -/
def State.tickResult (s : State) : Result := (respond .tick s).1

/-- The state after a sequence of operations in the host's order. -/
def afterOps (ops : List HostOp) (s : State) : State :=
  match ops with
  | [] => s
  | op :: rest => afterOps rest (respond op s).2

/-- The word the caller of `tick` receives: the executed word "unmodified", else 0 (R240, R247 `instr_word`). -/
def Result.word : Result → Word
  | .executed w => w
  | .idle | .done | .fault _ | .refused _ => 0

/-- The error codes of 60_exceptions.md R260 (D23: arbitrary, only distinctness matters). -/
def Fault.code : Fault → Nat
  | .loadError _ => 1
  | .memoryAccess _ => 2
  | .stackOverflow => 3
  | .stackUnderflow => 4
  | .decodeError _ => 5
  | .invalidKeyCode _ => 6

/-! ### What the host can read (R245, R246; 10_state.md R31, R39) -/

/-- The register accessor. -/
def State.readV (s : State) (x : Nibble) : Byte := s.getV x

/-- The index-register accessor. -/
def State.readI (s : State) : Word := s.idx

/-- The program-counter accessor. -/
def State.readPc (s : State) : Word := s.pc

/-- The memory accessor: out of range is MemoryAccessError (D34). -/
def State.readMem (s : State) (a : Nat) : Except Fault Byte := s.memRead a

/-- `pixel_rows()`: 32 row masks, column `c` is bit `63 - c` (R246). -/
def State.pixelRows (s : State) : Vector (BitVec 64) 32 := s.disp

/-- `DISP[r][c]` (10_state.md R32). -/
def State.pixel (s : State) (r c : Nat) : Bool := Display.pixel s.disp r c

/-- The output `sound = (ST > 0)` (10_state.md R31). -/
def State.sound (s : State) : Bool := decide (0 < s.st.toNat)

end Sys2Proof.Machine
end

