-- ==== Sys2Proof/Machine/Signals.lean ====
section
/-! DEFINITION. The signal mapping of 49_host_operations.md R247, an illustration on top of the operations (D1, log
entries 29 and 39): what one clock edge does with the strobes of its cycle, and the outputs after it. How many cycles
an operation takes is not specified, so a cycle says whether the operation in progress completes in it, and a claim
about all cycles holds for every duration. `rand_in` is the free value `Config.rand8`. -/

namespace Sys2Proof.Machine

/-- The operands of `load_req`. -/
structure LoadRequest where
  /-- `load_len`: 0 to 8191. -/
  len : BitVec 13
  /-- `load_data`: the bytes of the stream, delivered from the request to the completion of the load. -/
  data : Vector Byte len.toNat
  deriving DecidableEq, Repr

/-- The request inputs of one cycle. A key or load request carries its operands. -/
structure Strobes where
  /-- `rst`. -/
  rst : Bool
  /-- `tick_req`. -/
  tickReq : Bool
  /-- `timer_req`. -/
  timerReq : Bool
  /-- `key_req` with `key_code` and `key_pressed`. -/
  keyReq : Option (Byte × Bool)
  /-- `load_req` with `load_len` and `load_data`. -/
  loadReq : Option LoadRequest
  deriving DecidableEq, Repr

/-- The operations the four request strobes ask for. -/
def Strobes.requests (p : Strobes) : List HostOp :=
  (if p.tickReq then [.tick] else []) ++ (if p.timerReq then [.decrementTimers] else []) ++
    p.keyReq.toList.map (fun (code, pressed) => .setKey code.toNat pressed) ++ p.loadReq.toList.map (fun l => .load l.data.toList)

/-- One clock cycle. -/
structure Cycle where
  /-- The request inputs. -/
  strobes : Strobes
  /-- Whether the operation in progress, if there is one, completes in this cycle; a load does so with its last byte. -/
  completes : Bool
  deriving DecidableEq, Repr

/-- The core behind its signals. -/
structure Block where
  /-- The state of the core. -/
  core : State
  /-- The requested operation that has not completed: the block is busy. Its effect takes place as it completes. -/
  pending : Option HostOp
  deriving DecidableEq, Repr

/-- A completed operation with its result. -/
abbrev Completion := HostOp × Result

/-- The operation in progress for one cycle. -/
def Block.proceed (op : HostOp) (completes : Bool) (s : State) : Block × Option Completion :=
  if completes then
    let (r, t) := respond op s
    (⟨t, none⟩, some (op, r))
  else (⟨s, some op⟩, none)

/-- One rising edge of `clk`: the block after it and the operation it completed. `rst` has priority over every strobe
and over an operation in progress; a free block begins the one operation requested, or holds; a busy block accepts no
strobe. Two requests in one cycle, a tick with a timer request among them, or a request to a busy block break the duty
to serialise, and the cycle has no meaning (70_reset_and_hazards.md R296, 92 D33, 93 U13; log entries 29 and 39). -/
def Block.edge (c : Cycle) (b : Block) : Option (Block × Option Completion) :=
  if c.strobes.rst then some (Block.proceed .create true b.core)
  else
    match b.pending, c.strobes.requests with
    | none, [] => some (b, none)
    | none, [op] => some (Block.proceed op c.completes b.core)
    | some op, [] => some (Block.proceed op c.completes b.core)
    | none, _ :: _ :: _ => none
    | some _, _ :: _ => none

/-- A run of cycles: the block after it and the operations completed in it, in order. A run with a cycle that has no
meaning has none (R296). -/
def afterCycles (cs : List Cycle) (b : Block) : Option (Block × List Completion) :=
  match cs with
  | [] => some (b, [])
  | c :: rest =>
    match b.edge c with
    | none => none
    | some (b', done) => (afterCycles rest b').map (fun (z, ds) => (z, done.toList ++ ds))

/-- The outputs of the accessors. -/
structure Shown where
  /-- `dbg_v`. -/
  dbgV : Vector Byte 16
  /-- `dbg_i`. -/
  dbgI : Word
  /-- `dbg_pc`. -/
  dbgPc : Word
  /-- `dbg_mem_data` for the given `dbg_mem_addr`. -/
  dbgMemData : Byte
  /-- `pixel_row`. -/
  pixelRow : Vector (BitVec 64) 32
  deriving DecidableEq, Repr

/-- The outputs after an edge. Where R247 states no value of an output, there is none here. -/
structure Outputs where
  /-- `done`: the requested operation has completed. -/
  done : Bool
  /-- `fault`: the completed operation faulted. -/
  fault : Bool
  /-- `fault_kind`, the code of the error, where `fault` is high. -/
  faultKind : Option (BitVec 3)
  /-- `instr_word`, with `done` after `tick_req`. -/
  instrWord : Option Word
  /-- `sound`: `ST > 0`, combinational, at every instant (10_state.md R31), in a busy block too. -/
  sound : Bool
  /-- The outputs of the accessors, while no operation is in progress (log entry 39). -/
  shown : Option Shown
  deriving DecidableEq, Repr

/-- `fault_kind` of a result: the code of the error it reports. -/
def Result.faultKind : Result → Option (BitVec 3)
  | .fault f => some (BitVec.ofNat 3 f.code)
  | .executed _ | .idle | .done | .refused _ => none

/-- `instr_word` of a completed operation: the word of a tick, 0 if it waited or faulted; no value for another. -/
def Completion.instrWord : Completion → Option Word
  | (.tick, r) => some r.word
  | (.create, _) | (.load _, _) | (.decrementTimers, _) | (.setKey _ _, _) => none

/-- `dbg_mem_data` for `dbg_mem_addr`: a 12-bit address cannot be out of range. -/
def State.debugMemory (s : State) (a : Addr12) : Byte := s.byteAt a.toNat

/-- What the accessors show of a state, with `dbg_mem_addr` at `a`. -/
def State.shown (s : State) (a : Addr12) : Shown where
  dbgV := s.v
  dbgI := s.readI
  dbgPc := s.readPc
  dbgMemData := s.debugMemory a
  pixelRow := s.pixelRows

/-- The outputs of a block after an edge that completed `done`, with `dbg_mem_addr` at `a`. -/
def Block.outputs (b : Block) (done : Option Completion) (a : Addr12) : Outputs where
  done := done.isSome
  fault := (done.bind (fun d => d.2.faultKind)).isSome
  faultKind := done.bind (fun d => d.2.faultKind)
  instrWord := done.bind Completion.instrWord
  sound := b.core.sound
  shown := if b.pending.isNone then some (b.core.shown a) else none

end Sys2Proof.Machine
end

