-- ==== Sys2Proof/Safety.lean ====
section
/-! DEFINITION. The terms claims are stated in: what leaves what unchanged, the invariants of 10_state.md R40, safe
runs, and sequences of instructions. -/

namespace Sys2Proof.Machine

/-! ### Frames -/

/-- The pieces of State. -/
inductive Part where
  | cfg | mem | v | idx | pc | stack | dt | st | disp | keys | wait | waitX | draws
  deriving DecidableEq, Repr

/-- A piece reads the same in two states: registers by number, memory by address. -/
def Part.Same (p : Part) (s t : State) : Prop :=
  match p with
  | .cfg => t.cfg = s.cfg
  | .mem => ∀ a, t.byteAt a = s.byteAt a
  | .v => ∀ r, t.getV r = s.getV r
  | .idx => t.idx = s.idx
  | .pc => t.pc = s.pc
  | .stack => t.stack = s.stack
  | .dt => t.dt = s.dt
  | .st => t.st = s.st
  | .disp => t.disp = s.disp
  | .keys => t.keys = s.keys
  | .wait => t.wait = s.wait
  | .waitX => t.waitX = s.waitX
  | .draws => t.draws = s.draws

/-- Every piece outside the list reads the same in `t` as in `s`. -/
def UnchangedBut (ps : List Part) (s t : State) : Prop := ∀ p : Part, p ∉ ps → p.Same s t

/-- Every general register outside the list reads the same. -/
def RegsUnchangedBut (rs : List Nibble) (s t : State) : Prop := ∀ r : Nibble, r ∉ rs → t.getV r = s.getV r

/-- Every byte outside `a .. a + n - 1` reads the same. -/
def MemUnchangedOutside (a n : Nat) (s t : State) : Prop := ∀ k, ¬ (a ≤ k ∧ k < a + n) → t.byteAt k = s.byteAt k

/-! ### Sprites (47_draw.md) -/

/-- Whether a sprite with these rows, drawn at column `x0` and row `r0`, has a 1 bit over display pixel `(r, c)`:
row `r - r0` of it, pixel `i = (c - x0) mod 64` if that is one of its eight, which is bit `7 - i` of the row byte
(R215, R217). -/
def spriteBit (rows : List Byte) (x0 r0 r c : Nat) : Bool :=
  let i := (c + 64 - x0) % 64
  decide (r0 ≤ r) && decide (i < 8) && ((rows[r - r0]?).getD 0).getLsbD (7 - i)

/-! ### Invariants (10_state.md R40) -/

/-- R40 (a), (b), memory in canonical form, and a waiting `PC` at a place that was fetched from. -/
abbrev State.Inv (s : State) : Prop :=
  Memory.wf s.cfg s.mem = true ∧ s.sp ≤ s.cfg.stackDepth ∧ (∀ w ∈ s.stack, w.toNat ≤ 0x1000) ∧
    s.pc.toNat ≤ 0x1002 ∧ (s.wait = true → s.pc.toNat ≤ 0xFFE)

/-- R40 (c) as long as no `load` intervenes: while waiting, the word at `PC` is the key wait of register `WAITX`. -/
abbrev State.WaitLatched (s : State) : Prop := s.wait = true → s.fetchInstr = .ok (.ldVxK s.waitX)

/-- Key code `k` is pressed and no lower one is: `k = min(P)` (46_key_wait.md R208). -/
abbrev State.LowestKey (s : State) (k : Nibble) : Prop := s.keyPressed k = true ∧ ∀ j : Nibble, j < k → s.keyPressed j = false

/-- The state without the awaiting-key flag (46_key_wait.md R209). -/
def State.forgetWait (s : State) : State := { s with wait := false, waitX := 0 }

/-- An outcome with its next state passed through a function. -/
def mapNext (g : State → State) (o : Host.Outcome State Fault Refusal) : Host.Outcome State Fault Refusal :=
  match o with
  | .next t => .next (g t)
  | .fault f => .fault f
  | .refused r => .refused r

/-! ### Words and instructions -/

/-- The unassigned words, by number: the five regions of 30_encoding.md R87. -/
def Unassigned (c : Config) (w : Nat) : Prop :=
  (w / 4096 = 0x0 ∧ w ≠ 0x00E0 ∧ w ≠ 0x00EE) ∨
  (w / 4096 = 0x8 ∧ w % 16 ∈ [0x8, 0x9, 0xA, 0xB, 0xC, 0xD, 0xF]) ∨
  w / 4096 = 0xB ∨
  (w / 4096 = 0xE ∧ w % 256 ≠ 0x9E ∧ w % 256 ≠ 0xA1) ∨
  (w / 4096 = 0xF ∧ w % 256 ∉ [0x07, 0x0A, 0x15, 0x18, 0x1E, 0x29, 0x33, 0x55, 0x65] ∧
    c.stReadLow.map BitVec.toNat ≠ some (w % 256))

/-- Where `PC` is after an instruction that executed: the table of 10_state.md R25. -/
def pcAfter (i : Instr) (s : State) : Word :=
  let next := s.pc + 2
  let skip := s.pc + 4
  match i with
  | .jp nnn | .call nnn => BitVec.ofNat 16 nnn.toNat
  | .ret => s.stack.headD 0
  | .seImm x kk => if s.getV x = kk then skip else next
  | .sneImm x kk => if s.getV x = kk then next else skip
  | .seReg x y => if s.getV x = s.getV y then skip else next
  | .sneReg x y => if s.getV x = s.getV y then next else skip
  | .skp x => if s.keyPressed (BitVec.ofNat 4 ((s.getV x).toNat % 16)) then skip else next
  | .sknp x => if s.keyPressed (BitVec.ofNat 4 ((s.getV x).toNat % 16)) then next else skip
  | .ldVxK _ => if s.keyPick.isSome then next else s.pc
  | .cls | .ldImm _ _ | .addImm _ _ | .ldReg _ _ | .orReg _ _ | .andReg _ _ | .xorReg _ _ | .addReg _ _ => next
  | .subReg _ _ | .shr _ | .subnReg _ _ | .shl _ | .ldI _ | .rnd _ _ | .drw _ _ _ | .ldVxDt _ | .ldVxSt _ => next
  | .ldDtVx _ | .ldStVx _ | .addI _ | .ldF _ | .ldB _ | .storeRegs _ | .loadRegs _ => next

/-- The instruction accesses memory as data out of bounds: the conditions of 60_exceptions.md R261. -/
def dataOutOfBounds (i : Instr) (s : State) : Prop :=
  match i with
  | .storeRegs x | .loadRegs x => s.idx.toNat + x.toNat > 4095
  | .ldB _ => s.idx.toNat + 2 > 4095
  | .drw _ _ n => n.toNat > 0 ∧ s.idx.toNat + n.toNat - 1 > 4095
  | .cls | .ret | .jp _ | .call _ | .seImm _ _ | .sneImm _ _ | .seReg _ _ | .ldImm _ _ | .addImm _ _ => False
  | .ldReg _ _ | .orReg _ _ | .andReg _ _ | .xorReg _ _ | .addReg _ _ | .subReg _ _ | .shr _ => False
  | .subnReg _ _ | .shl _ | .sneReg _ _ | .ldI _ | .rnd _ _ | .skp _ | .sknp _ | .ldVxDt _ | .ldVxSt _ => False
  | .ldVxK _ | .ldDtVx _ | .ldStVx _ | .addI _ | .ldF _ => False

/-- The six instructions that write VF as a flag (10_state.md R22). -/
def writesFlag (i : Instr) : Bool :=
  match i with
  | .addReg _ _ | .subReg _ _ | .shr _ | .subnReg _ _ | .shl _ | .drw _ _ _ => true
  | .cls | .ret | .jp _ | .call _ | .seImm _ _ | .sneImm _ _ | .seReg _ _ | .ldImm _ _ | .addImm _ _ => false
  | .ldReg _ _ | .orReg _ _ | .andReg _ _ | .xorReg _ _ | .sneReg _ _ | .ldI _ | .rnd _ _ | .skp _ => false
  | .sknp _ | .ldVxDt _ | .ldVxSt _ | .ldVxK _ | .ldDtVx _ | .ldStVx _ | .addI _ | .ldF _ | .ldB _ => false
  | .storeRegs _ | .loadRegs _ => false

/-- The registers an instruction's own destination field names: `x`, and `0..x` for `LD Vx, [I]`. -/
def namesDest (i : Instr) (r : Nibble) : Prop :=
  match i with
  | .ldImm x _ | .addImm x _ | .ldReg x _ | .orReg x _ | .andReg x _ | .xorReg x _ | .addReg x _ | .subReg x _ => r = x
  | .shr x | .subnReg x _ | .shl x | .rnd x _ | .ldVxDt x | .ldVxSt x | .ldVxK x => r = x
  | .loadRegs x => r.toNat ≤ x.toNat
  | .cls | .ret | .jp _ | .call _ | .seImm _ _ | .sneImm _ _ | .seReg _ _ | .sneReg _ _ | .ldI _ | .drw _ _ _ => False
  | .skp _ | .sknp _ | .ldDtVx _ | .ldStVx _ | .addI _ | .ldF _ | .ldB _ | .storeRegs _ => False

/-! ### Runs -/

/-- Execute instructions one after the other, stopping at the first error. -/
def execSeq (is : List Instr) (s : State) : Host.Outcome State Fault Refusal :=
  match is with
  | [] => .next s
  | i :: rest =>
    match exec i s with
    | .next t => execSeq rest t
    | .fault f => .fault f
    | .refused r => .refused r

/-- A run is safe if no operation of it reports an error. DESIGN CHOICE (safe, log entry 38): 60_exceptions.md R270
ends what can be claimed at "the first fault of a run" and takes as premise that no tick faults, and by R279 a failing
`load` or `set_key` does not disturb a run; the error of any operation counts here. -/
def safeRun (ops : List HostOp) (s : State) : Bool :=
  match ops with
  | [] => true
  | op :: rest =>
    match perform op s with
    | .next t => safeRun rest t
    | .fault _ | .refused _ => false

/-- The operations of a sequence from a state, each with its result. -/
def answers (ops : List HostOp) (s : State) : List (HostOp × Result) :=
  match ops with
  | [] => []
  | op :: rest => (op, (respond op s).1) :: answers rest (respond op s).2

/-- Finished at `a` (49_host_operations.md R249): a jump to self, not waiting. -/
def State.FinishedAt (s : State) (a : Addr12) : Prop :=
  s.pc = zextAddr a ∧ s.wait = false ∧ s.fetch = .ok (0x1000 ||| zextAddr a)

end Sys2Proof.Machine
end

