-- ==== Sys2Proof/Certificates/Slice0/Obligations.lean ====
section
/-! DEFINITION. The statements for the provers. Each docstring names the rule of the spec it formalises and, where a
clause rests on a decision, the decision and the log entry. Statements about "every state" quantify over the
parameters too, since a state carries them. -/

open Sys2Proof Sys2Proof.Machine

/-! ### Encoding and decoding (30_encoding.md) -/

/-- Decoding the bytes of an encoded instruction gives it back, with every field at every value, and leaves the bytes
after it. Numeric values and field positions are the spec's decisions D5, D6 (log entry 4). -/
def Obligations.DecodeOfEncodeIsIdentity : Prop :=
  ∀ (c : Config) (i : Instr) (rest : List Byte), c.Admissible → i.wellFormed c = true →
    decodeBytes c (bytesOfWord (encode c i) ++ rest) = .ok (i, rest)

/-- R85, R86, R96: a word decodes to an instruction of a row it matches, and a word that matches a row decodes to an
instruction of that row, so no word matches two rows and a word matching none is rejected (D5, D6, log entry 4). -/
def Obligations.DecodingFollowsTheUniqueMatchingRow : Prop :=
  ∀ (c : Config) (w : Word), c.Admissible →
    (∀ i, decodeWord c w = .ok i → i.wellFormed c = true ∧ MatchesRow c i w) ∧
    (∀ i, i.wellFormed c = true → MatchesRow c i w → ∃ j, decodeWord c w = .ok j ∧ rowOf c j = rowOf c i)

/-- R87: the rejected words are exactly the five listed regions (D8, log entry 18). -/
def Obligations.UnassignedWordsAreExactlyTheListedRegions : Prop :=
  ∀ (c : Config) (w : Word), (∃ e, decodeWord c w = .error e) ↔ Unassigned c w.toNat

/-- Encoding a decoded word gives the word back with 0 in the bits R89 lets the decoder ignore, so every other bit is
read (D9, D11, log entries 9 and 17). -/
def Obligations.DecodingDropsOnlyIgnoredBits : Prop :=
  ∀ (c : Config) (w : Word) (i : Instr), c.Admissible → decodeWord c w = .ok i → encode c i = w &&& ~~~ ignoredBits i

/-- One word of each family, written out from R86, decodes to its instruction (D5, D6, log entry 4). -/
def Obligations.SampleWordsDecode : Prop :=
  ∀ c : Config,
    decodeBytes c [0x22, 0x0A] = .ok (.call 0x20A, []) ∧ decodeBytes c [0x31, 0x00] = .ok (.seImm 1 0x00, []) ∧
    decodeBytes c [0x81, 0x27] = .ok (.subnReg 1 2, []) ∧ decodeBytes c [0xA3, 0x00] = .ok (.ldI 0x300, []) ∧
    decodeBytes c [0xC3, 0xF0] = .ok (.rnd 3 0xF0, []) ∧ decodeBytes c [0xD1, 0x25] = .ok (.drw 1 2 5, []) ∧
    decodeBytes c [0xE3, 0xA1] = .ok (.sknp 3, []) ∧ decodeBytes c [0xF4, 0x18] = .ok (.ldStVx 4, []) ∧
    decodeBytes c [0xF5, 0x0A] = .ok (.ldVxK 5, []) ∧ decodeBytes c [0xF5, 0x33] = .ok (.ldB 5, [])

/-! ### The instruction cycle (40_instruction_cycle.md) -/

/-- R110, R112 to R114: when the two bytes at `PC` decode to `i`, a tick that does not start waiting is exactly
`exec i`; nothing is added around it. -/
def Obligations.StepRunsTheDecodedInstruction : Prop :=
  ∀ (s : State) (i : Instr), s.wait = false → s.pc.toNat < 0xFFF →
    decodeBytes s.cfg [s.byteAt s.pc.toNat, s.byteAt (s.pc.toNat + 1)] = .ok (i, []) → step s = exec i s

/-- R54, R55, R56: the fetch takes two bytes at any `PC` below 0xFFF, high byte first, and depends on nothing but `PC`
and those two cells; from 0xFFF up it reports the lowest address out of bounds (the reported address is D23, the
freedom of parity D27; log entries 20 and 22). -/
def Obligations.FetchIsTwoBytesBigEndian : Prop :=
  (∀ s : State, s.pc.toNat < 0xFFF →
    ∃ w, s.fetch = .ok w ∧ w.toNat = 256 * (s.byteAt s.pc.toNat).toNat + (s.byteAt (s.pc.toNat + 1)).toNat) ∧
  (∀ s : State, 0xFFF ≤ s.pc.toNat → s.fetch = .error (.memoryAccess (max s.pc.toNat 4096))) ∧
  (∀ s t : State, t.pc = s.pc → t.byteAt s.pc.toNat = s.byteAt s.pc.toNat →
    t.byteAt (s.pc.toNat + 1) = s.byteAt (s.pc.toNat + 1) → t.fetch = s.fetch)

/-- R120: the order of checks inside one tick: waiting, fetch bound, decode, the instruction's own. -/
def Obligations.TickChecksInOrder : Prop :=
  ∀ s : State,
    (s.wait = true → ∃ t, step s = .next t) ∧
    (s.wait = false → 0xFFF ≤ s.pc.toNat → ∃ a, step s = .fault (.memoryAccess a)) ∧
    (s.wait = false → ∀ w, s.fetch = .ok w → (∃ e, decodeWord s.cfg w = .error e) → ∃ w', step s = .fault (.decodeError w')) ∧
    (s.wait = false → ∀ w, s.fetch = .ok w → ∀ i, decodeWord s.cfg w = .ok i → step s = exec i s)

/-- R261: which tick can report which error, exactly; every other instruction reports none. The premise is the
invariant `SP <= STACK_DEPTH` (R40 (a)), part of `State.Inv`. -/
def Obligations.TickErrorsExactlyAsTabled : Prop :=
  ∀ s : State, s.sp ≤ s.cfg.stackDepth →
    ((∃ a, step s = .fault (.memoryAccess a)) ↔
      s.wait = false ∧ (0xFFF ≤ s.pc.toNat ∨ ∃ i, s.fetchInstr = .ok i ∧ dataOutOfBounds i s)) ∧
    ((∃ w, step s = .fault (.decodeError w)) ↔
      s.wait = false ∧ ∃ w, s.fetch = .ok w ∧ Unassigned s.cfg w.toNat) ∧
    (step s = .fault .stackOverflow ↔
      s.wait = false ∧ ∃ nnn, s.fetchInstr = .ok (.call nnn) ∧ s.sp = s.cfg.stackDepth) ∧
    (step s = .fault .stackUnderflow ↔ s.wait = false ∧ s.fetchInstr = .ok .ret ∧ s.sp = 0) ∧
    (∀ n, step s ≠ .fault (.loadError n)) ∧ (∀ k, step s ≠ .fault (.invalidKeyCode k))

/-- R60, R262 (D23, log entry 20): a data access out of bounds reports `max(I, 4096)`; a decode error reports the
fetched word. -/
def Obligations.ErrorsCarryTheirPayload : Prop :=
  (∀ (i : Instr) (s : State) (a : Nat), exec i s = .fault (.memoryAccess a) → a = max s.idx.toNat 4096) ∧
  (∀ (s : State) (w : Word), step s = .fault (.decodeError w) → s.fetch = .ok w)

/-- R118: in every state a tick has an outcome, a next state or an error, never a refusal; and the random byte reaches
`RND` alone: for any other fetched instruction, and while waiting, the outcome is the same whatever the draw counter,
which is kept. -/
def Obligations.TickIsTotalAndRandomOnlyForRnd : Prop :=
  (∀ s : State, (∃ t, step s = .next t) ∨ ∃ f, step s = .fault f) ∧
  (∀ (s : State) (k : Nat), (s.wait = true ∨ ∀ x kk, s.fetchInstr ≠ .ok (.rnd x kk)) →
    step { s with draws := k } = mapNext (fun t => { t with draws := k }) (step s))

/-- R119: a tick that reports an error leaves every field as it was, the same tick repeated reports the same error,
and no error depends on the random byte. -/
def Obligations.FaultingTickChangesNothingAndRepeats : Prop :=
  ∀ (s t : State) (f : Fault), respond .tick s = (.fault f, t) →
    t = s ∧ respond .tick t = (.fault f, s) ∧ ∀ k : Nat, (respond .tick { s with draws := k }).1 = .fault f

/-- R111, R206, R207 (with `KEY_PICK` the lowest code, D21, log entry 6): a tick that starts waiting fetches nothing;
with no key down it changes nothing; otherwise the lowest pressed code goes to register `WAITX`, `PC` advances by 2 and
the wait ends. Its result is `Idle` (D21, D22, log entries 7 and 24). -/
def Obligations.WaitingTickPollsOnce : Prop :=
  ∀ s : State, s.wait = true →
    ((∀ k : Nibble, s.keyPressed k = false) → step s = .next s) ∧
    (∀ k : Nibble, s.LowestKey k →
      ∃ t, step s = .next t ∧ (t.getV s.waitX).toNat = k.toNat ∧ t.pc = s.pc + 2 ∧ t.wait = false ∧
        RegsUnchangedBut [s.waitX] s t ∧ UnchangedBut [.v, .pc, .wait] s t) ∧
    s.tickResult = .idle

/-- R209: the machine with the awaiting-key flag and the machine that simply executes the same key wait again agree
after every tick on everything but the flag, as long as the word at `PC` is still the key wait that was latched (D21, log
entry 7). -/
def Obligations.KeyWaitFlagAgreesWithReexecution : Prop :=
  ∀ s : State, s.WaitLatched →
    mapNext State.forgetWait (step s) = mapNext State.forgetWait (step s.forgetWait)

/-- The table of R25: where `PC` is after each instruction that executed, and after an error. That a key wait polls at
its fetching tick is D21 (log entry 7). -/
def Obligations.ProgramCounterMovesAsTabled : Prop :=
  (∀ (i : Instr) (s t : State), exec i s = .next t → t.pc = pcAfter i s) ∧
  (∀ (s t : State) (f : Fault), respond .tick s = (.fault f, t) → t.pc = s.pc)

/-- R116, R240, R88 (D22, D8, log entries 24 and 18): the word a tick returns is the executed one, which is never 0; it is 0 for a
waiting tick and for an error. -/
def Obligations.TickReturnsTheExecutedWord : Prop :=
  ∀ s : State,
    (s.wait = true → s.tickResult.word = 0) ∧
    (∀ t, s.wait = false → step s = .next t → ∃ w, s.fetch = .ok w ∧ s.tickResult = .executed w ∧ w ≠ 0) ∧
    (∀ f, step s = .fault f → s.tickResult = .fault f ∧ s.tickResult.word = 0)

/-! ### Control flow (41_control_flow.md) -/

/-- R130: `CLS` clears every pixel. -/
def Obligations.ClsClearsTheDisplay : Prop :=
  ∀ s : State, ∃ t, exec .cls s = .next t ∧ (∀ r c, t.pixel r c = false) ∧ t.pc = s.pc + 2 ∧ UnchangedBut [.disp, .pc] s t

/-- R131: `RET` with a live entry sets `PC` to exactly it; with none it reports StackUnderflow. -/
def Obligations.RetPopsIntoPc : Prop :=
  (∀ (s : State) (w : Word) (rest : List Word), s.stack = w :: rest →
    ∃ t, exec .ret s = .next t ∧ t.pc = w ∧ t.stack = rest ∧ UnchangedBut [.pc, .stack] s t) ∧
  (∀ s : State, s.sp = 0 → exec .ret s = .fault .stackUnderflow)

/-- R132: `JP` sets `PC` to the zero-extended address. -/
def Obligations.JpSetsPc : Prop :=
  ∀ (nnn : Addr12) (s : State), ∃ t, exec (.jp nnn) s = .next t ∧ t.pc.toNat = nnn.toNat ∧ UnchangedBut [.pc] s t

/-- R133, R28: `CALL` with room pushes the return address `pc + 2` (D20, log entry 16) as entry `STACK[SP]` and jumps;
on a full stack it reports StackOverflow. -/
def Obligations.CallPushesReturnAddress : Prop :=
  (∀ (nnn : Addr12) (s : State), s.sp < s.cfg.stackDepth →
    ∃ t, exec (.call nnn) s = .next t ∧ t.pc.toNat = nnn.toNat ∧ t.stackEntry s.sp = some (s.pc + 2) ∧
      t.sp = s.sp + 1 ∧ (∀ k, k < s.sp → t.stackEntry k = s.stackEntry k) ∧ UnchangedBut [.pc, .stack] s t) ∧
  (∀ (nnn : Addr12) (s : State), s.sp = s.cfg.stackDepth → exec (.call nnn) s = .fault .stackOverflow)

/-- R134 to R137: the four compare-and-skip instructions complete in every state and change `PC` only. -/
def Obligations.CompareSkipsMovePcOnly : Prop :=
  ∀ (x y : Nibble) (kk : Byte) (s : State),
    (∃ t, exec (.seImm x kk) s = .next t ∧ t.pc = (if s.getV x = kk then s.pc + 4 else s.pc + 2) ∧ UnchangedBut [.pc] s t) ∧
    (∃ t, exec (.sneImm x kk) s = .next t ∧ t.pc = (if s.getV x ≠ kk then s.pc + 4 else s.pc + 2) ∧ UnchangedBut [.pc] s t) ∧
    (∃ t, exec (.seReg x y) s = .next t ∧ t.pc = (if s.getV x = s.getV y then s.pc + 4 else s.pc + 2) ∧ UnchangedBut [.pc] s t) ∧
    (∃ t, exec (.sneReg x y) s = .next t ∧ t.pc = (if s.getV x ≠ s.getV y then s.pc + 4 else s.pc + 2) ∧ UnchangedBut [.pc] s t)

/-- R138 (a) (D20, log entry 16): N nested calls followed by N returns, N at most the room on the stack, end just after the outermost
call, with the stack and everything but `PC` as before. -/
def Obligations.NestedCallsAndReturnsComeBack : Prop :=
  ∀ (targets : List Addr12) (s : State), targets ≠ [] → s.sp + targets.length ≤ s.cfg.stackDepth →
    ∃ t, execSeq (targets.map Instr.call ++ List.replicate targets.length Instr.ret) s = .next t ∧
      t.pc = s.pc + 2 ∧ UnchangedBut [.pc] s t

/-- R138 (b), R267: nesting as deep as the bound succeeds and one call more reports StackOverflow. The premise is the
invariant `SP <= STACK_DEPTH`. -/
def Obligations.NestingBeyondTheBoundOverflows : Prop :=
  ∀ (targets : List Addr12) (s : State), s.sp ≤ s.cfg.stackDepth →
    (s.sp + targets.length ≤ s.cfg.stackDepth →
      ∃ t, execSeq (targets.map Instr.call) s = .next t ∧ t.sp = s.sp + targets.length) ∧
    (s.cfg.stackDepth < s.sp + targets.length → execSeq (targets.map Instr.call) s = .fault .stackOverflow)

/-! ### Arithmetic (42_arithmetic.md) -/

/-- R150, R151: load and add immediate; the sum wraps modulo 256 and VF is written only if it is the destination. -/
def Obligations.ImmediateLoadAndAdd : Prop :=
  ∀ (x : Nibble) (kk : Byte) (s : State),
    (∃ t, exec (.ldImm x kk) s = .next t ∧ t.getV x = kk ∧ t.pc = s.pc + 2 ∧
      RegsUnchangedBut [x] s t ∧ UnchangedBut [.v, .pc] s t) ∧
    (∃ t, exec (.addImm x kk) s = .next t ∧ (t.getV x).toNat = ((s.getV x).toNat + kk.toNat) % 256 ∧ t.pc = s.pc + 2 ∧
      RegsUnchangedBut [x] s t ∧ UnchangedBut [.v, .pc] s t)

/-- R152 to R155: copy and the three bitwise operations; VF is not written as a flag (D13, log entry 8). -/
def Obligations.CopyAndBitwise : Prop :=
  ∀ (x y : Nibble) (s : State),
    (∃ t, exec (.ldReg x y) s = .next t ∧ t.getV x = s.getV y ∧ t.pc = s.pc + 2 ∧
      RegsUnchangedBut [x] s t ∧ UnchangedBut [.v, .pc] s t) ∧
    (∃ t, exec (.orReg x y) s = .next t ∧ t.getV x = s.getV x ||| s.getV y ∧ t.pc = s.pc + 2 ∧
      RegsUnchangedBut [x] s t ∧ UnchangedBut [.v, .pc] s t) ∧
    (∃ t, exec (.andReg x y) s = .next t ∧ t.getV x = s.getV x &&& s.getV y ∧ t.pc = s.pc + 2 ∧
      RegsUnchangedBut [x] s t ∧ UnchangedBut [.v, .pc] s t) ∧
    (∃ t, exec (.xorReg x y) s = .next t ∧ t.getV x = s.getV x ^^^ s.getV y ∧ t.pc = s.pc + 2 ∧
      RegsUnchangedBut [x] s t ∧ UnchangedBut [.v, .pc] s t)

/-- R157: `ADD Vx, Vy` modulo 256 with VF the carry; with `x = F` the flag remains (D12, log entry 8). -/
def Obligations.AddSetsCarry : Prop :=
  ∀ (x y : Nibble) (s : State), ∃ t, exec (.addReg x y) s = .next t ∧
    t.getV 0xF = (if (s.getV x).toNat + (s.getV y).toNat > 255 then 1 else 0) ∧
    (x ≠ 0xF → (t.getV x).toNat = ((s.getV x).toNat + (s.getV y).toNat) % 256) ∧ t.pc = s.pc + 2 ∧
    RegsUnchangedBut [x, 0xF] s t ∧ UnchangedBut [.v, .pc] s t

/-- R158, R160: both subtractions modulo 256 with VF the no-borrow flag; with `x = F` the flag remains (D12, log
entry 8). -/
def Obligations.SubtractionsSetNoBorrow : Prop :=
  ∀ (x y : Nibble) (s : State),
    (∃ t, exec (.subReg x y) s = .next t ∧ t.getV 0xF = (if (s.getV y).toNat ≤ (s.getV x).toNat then 1 else 0) ∧
      (x ≠ 0xF → (t.getV x).toNat = ((s.getV x).toNat + 256 - (s.getV y).toNat) % 256) ∧ t.pc = s.pc + 2 ∧
      RegsUnchangedBut [x, 0xF] s t ∧ UnchangedBut [.v, .pc] s t) ∧
    (∃ t, exec (.subnReg x y) s = .next t ∧ t.getV 0xF = (if (s.getV x).toNat ≤ (s.getV y).toNat then 1 else 0) ∧
      (x ≠ 0xF → (t.getV x).toNat = ((s.getV y).toNat + 256 - (s.getV x).toNat) % 256) ∧ t.pc = s.pc + 2 ∧
      RegsUnchangedBut [x, 0xF] s t ∧ UnchangedBut [.v, .pc] s t)

/-- R159, R161: both shifts by one, in place (D11, log entry 9), with VF the bit shifted out; with `x = F` the flag
remains (D12, log entry 8). -/
def Obligations.ShiftsSetTheLostBit : Prop :=
  ∀ (x : Nibble) (s : State),
    (∃ t, exec (.shr x) s = .next t ∧ (t.getV 0xF).toNat = (s.getV x).toNat % 2 ∧
      (x ≠ 0xF → (t.getV x).toNat = (s.getV x).toNat / 2) ∧ t.pc = s.pc + 2 ∧
      RegsUnchangedBut [x, 0xF] s t ∧ UnchangedBut [.v, .pc] s t) ∧
    (∃ t, exec (.shl x) s = .next t ∧ (t.getV 0xF).toNat = (s.getV x).toNat / 128 ∧
      (x ≠ 0xF → (t.getV x).toNat = 2 * (s.getV x).toNat % 256) ∧ t.pc = s.pc + 2 ∧
      RegsUnchangedBut [x, 0xF] s t ∧ UnchangedBut [.v, .pc] s t)

/-- R22, R40 (d): the six flag writers leave VF 0 or 1; any other instruction leaves VF alone unless its own
destination field names register 15 (D12, D13, log entry 8). -/
def Obligations.VfWrittenOnlyAsTabled : Prop :=
  ∀ (i : Instr) (s t : State), exec i s = .next t →
    (writesFlag i = true → t.getV 0xF = 0 ∨ t.getV 0xF = 1) ∧
    (writesFlag i = false → ¬ namesDest i 0xF → t.getV 0xF = s.getV 0xF)

/-! ### The index register and memory (43_index_memory.md, 48_bcd.md) -/

/-- R170 to R172: `LD I`, `ADD I` (modulo 65536, no flag: D13, D15, log entries 8 and 11) and `LD F` write `I` and no
register, flag or memory. The premise on `LD F` is the constraint of R7 on `FONT_BASE`. -/
def Obligations.IndexRegisterInstructions : Prop :=
  ∀ s : State,
    (∀ nnn : Addr12, ∃ t, exec (.ldI nnn) s = .next t ∧ t.idx.toNat = nnn.toNat ∧ t.pc = s.pc + 2 ∧
      UnchangedBut [.idx, .pc] s t) ∧
    (∀ x : Nibble, ∃ t, exec (.addI x) s = .next t ∧ t.idx.toNat = (s.idx.toNat + (s.getV x).toNat) % 65536 ∧
      t.pc = s.pc + 2 ∧ UnchangedBut [.idx, .pc] s t) ∧
    (∀ x : Nibble, s.cfg.fontBase ≤ 0x1B0 → ∃ t, exec (.ldF x) s = .next t ∧ t.idx.toNat = s.cfg.fontBase + 5 * ((s.getV x).toNat % 16) ∧
      t.pc = s.pc + 2 ∧ UnchangedBut [.idx, .pc] s t)

/-- R172 with R36: on memory as reset leaves it, `LD F, Vx` points `I` at the five font bytes of the low digit of
`V[x]`, whatever the font and its place. -/
def Obligations.LdFPointsAtTheGlyphBytes : Prop :=
  ∀ (s : State) (x : Nibble), s.cfg.Admissible → s.mem = [] →
    ∃ t, exec (.ldF x) s = .next t ∧
      ∀ k, k < 5 → s.cfg.font[5 * ((s.getV x).toNat % 16) + k]? = some (t.byteAt (t.idx.toNat + k))

/-- R173, R60: `LD [I], Vx` stores `V[0..x]` from `I` up and changes no other byte, or, if the range leaves memory,
reports the lowest address out of bounds (D23, log entry 20); `I` is unchanged (D14, log entry 10). -/
def Obligations.StoreBankWritesTheRange : Prop :=
  ∀ (x : Nibble) (s : State),
    (s.idx.toNat + x.toNat ≤ 4095 →
      ∃ t, exec (.storeRegs x) s = .next t ∧ (∀ r : Nibble, r.toNat ≤ x.toNat → t.byteAt (s.idx.toNat + r.toNat) = s.getV r) ∧
        MemUnchangedOutside s.idx.toNat (x.toNat + 1) s t ∧ t.pc = s.pc + 2 ∧ UnchangedBut [.mem, .pc] s t) ∧
    (s.idx.toNat + x.toNat > 4095 → exec (.storeRegs x) s = .fault (.memoryAccess (max s.idx.toNat 4096)))

/-- R174, R60: `LD Vx, [I]` loads `V[0..x]` from `I` up and changes no other register and no byte, or reports the lowest
address out of bounds (D23, log entry 20); `I` is unchanged (D14, log entry 10). -/
def Obligations.LoadBankReadsTheRange : Prop :=
  ∀ (x : Nibble) (s : State),
    (s.idx.toNat + x.toNat ≤ 4095 →
      ∃ t, exec (.loadRegs x) s = .next t ∧ (∀ r : Nibble, r.toNat ≤ x.toNat → t.getV r = s.byteAt (s.idx.toNat + r.toNat)) ∧
        (∀ r : Nibble, r.toNat > x.toNat → t.getV r = s.getV r) ∧ t.pc = s.pc + 2 ∧ UnchangedBut [.v, .pc] s t) ∧
    (s.idx.toNat + x.toNat > 4095 → exec (.loadRegs x) s = .fault (.memoryAccess (max s.idx.toNat 4096)))

/-- R175: a bank stored and then loaded with the same `I` and `x`, memory unchanged in between, comes back exactly. -/
def Obligations.StoreThenLoadRestoresTheBank : Prop :=
  ∀ (x : Nibble) (s t u : State), exec (.storeRegs x) s = .next t → u.idx = s.idx → (∀ a, u.byteAt a = t.byteAt a) →
    ∃ w, exec (.loadRegs x) u = .next w ∧ ∀ r : Nibble, r.toNat ≤ x.toNat → w.getV r = s.getV r

/-- R230, R231: `LD B, Vx` stores three digits whose decimal value is `V[x]`, most significant first (D16, log entry
12), and changes no other byte; or reports the lowest address out of bounds (D23, log entry 20). -/
def Obligations.BcdStoresThreeDigits : Prop :=
  ∀ (x : Nibble) (s : State),
    (s.idx.toNat + 2 ≤ 4095 →
      ∃ t, exec (.ldB x) s = .next t ∧
        100 * (t.byteAt s.idx.toNat).toNat + 10 * (t.byteAt (s.idx.toNat + 1)).toNat + (t.byteAt (s.idx.toNat + 2)).toNat
          = (s.getV x).toNat ∧
        (t.byteAt (s.idx.toNat + 1)).toNat ≤ 9 ∧ (t.byteAt (s.idx.toNat + 2)).toNat ≤ 9 ∧
        MemUnchangedOutside s.idx.toNat 3 s t ∧ t.pc = s.pc + 2 ∧ UnchangedBut [.mem, .pc] s t) ∧
    (s.idx.toNat + 2 > 4095 → exec (.ldB x) s = .fault (.memoryAccess (max s.idx.toNat 4096)))

/-- 20_memory.md R65 (D32, log entry 36): a store over the next instruction's word is what the next tick fetches. -/
def Obligations.StoreIsSeenByTheNextFetch : Prop :=
  ∀ (x : Nibble) (s t : State), 1 ≤ x.toNat → s.idx = s.pc + 2 → exec (.storeRegs x) s = .next t →
    t.fetch = .ok (s.getV 0 ++ s.getV 1)

/-- 20_memory.md R52, R53: a byte read gives the cell and a byte write changes that one cell and nothing else, both only
up to address 4095. -/
def Obligations.ByteAccessesAreBoundsChecked : Prop :=
  ∀ (s : State) (a : Nat) (b : Byte),
    (a > 4095 → s.memRead a = .error (.memoryAccess a) ∧ s.memWrite a b = .error (.memoryAccess a)) ∧
    (a ≤ 4095 → s.memRead a = .ok (s.byteAt a) ∧
      ∃ t, s.memWrite a b = .ok t ∧ t.byteAt a = b ∧ (∀ k, k ≠ a → t.byteAt k = s.byteAt k) ∧ UnchangedBut [.mem] s t)

/-- The model's memory is canonical (log entry 26): two canonical memories that read the same at every address are the
same data. -/
def Obligations.EqualMemoriesAreEqualData : Prop :=
  ∀ s t : State, s.cfg = t.cfg → Memory.wf s.cfg s.mem = true → Memory.wf t.cfg t.mem = true →
    (∀ a, s.byteAt a = t.byteAt a) → s.mem = t.mem

/-! ### Random byte, keys, timers (44 to 46) -/

/-- R185: `RND` stores the free byte of this draw masked by `kk`, so every bit clear in `kk` is clear, and the next draw
is a fresh one (D25, log entry 2). The byte is `Config.rand8` of the draw counter, of which nothing is known. -/
def Obligations.RndStoresAMaskedFreeByte : Prop :=
  ∀ (x : Nibble) (kk : Byte) (s : State), ∃ t, exec (.rnd x kk) s = .next t ∧ t.getV x = Config.rand8 s.draws &&& kk ∧
    t.getV x &&& ~~~ kk = 0 ∧ t.draws = s.draws + 1 ∧ t.pc = s.pc + 2 ∧
    RegsUnchangedBut [x] s t ∧ UnchangedBut [.v, .pc, .draws] s t

/-- R186 to R188: the skips by key test the key named by the low nibble of `V[x]`, change `PC` only, and exactly one of
them skips. -/
def Obligations.KeySkipsTestTheLowNibble : Prop :=
  ∀ (x k : Nibble) (s : State), k.toNat = (s.getV x).toNat % 16 →
    (∃ t, exec (.skp x) s = .next t ∧ t.pc = (if s.keyPressed k = true then s.pc + 4 else s.pc + 2) ∧ UnchangedBut [.pc] s t) ∧
    (∃ t, exec (.sknp x) s = .next t ∧ t.pc = (if s.keyPressed k = false then s.pc + 4 else s.pc + 2) ∧ UnchangedBut [.pc] s t)

/-- R195 to R198, 10_state.md R31: the four timer instructions; `sound` is at once whether the written value is above 0.
That `LD Vx, ST` is an instruction of its own is D7 (log entry 19). -/
def Obligations.TimerInstructions : Prop :=
  ∀ (x : Nibble) (s : State),
    (∃ t, exec (.ldVxDt x) s = .next t ∧ t.getV x = s.dt ∧ t.pc = s.pc + 2 ∧
      RegsUnchangedBut [x] s t ∧ UnchangedBut [.v, .pc] s t) ∧
    (∃ t, exec (.ldVxSt x) s = .next t ∧ t.getV x = s.st ∧ t.pc = s.pc + 2 ∧ t.sound = s.sound ∧
      RegsUnchangedBut [x] s t ∧ UnchangedBut [.v, .pc] s t) ∧
    (∃ t, exec (.ldDtVx x) s = .next t ∧ t.dt = s.getV x ∧ t.pc = s.pc + 2 ∧ UnchangedBut [.dt, .pc] s t) ∧
    (∃ t, exec (.ldStVx x) s = .next t ∧ t.st = s.getV x ∧ (t.sound = true ↔ 0 < (s.getV x).toNat) ∧ t.pc = s.pc + 2 ∧
      UnchangedBut [.st, .pc] s t)

/-- R205, R208 (D21, log entries 6 and 7): the tick that fetches `LD Vx, K` polls at once; with a key down it stores the
lowest pressed code and goes on; with none it latches `x` and leaves `PC` and every register. -/
def Obligations.KeyWaitCompletesOrLatches : Prop :=
  ∀ (x : Nibble) (s : State),
    (∀ k : Nibble, s.LowestKey k →
      ∃ t, exec (.ldVxK x) s = .next t ∧ (t.getV x).toNat = k.toNat ∧ t.pc = s.pc + 2 ∧
        RegsUnchangedBut [x] s t ∧ UnchangedBut [.v, .pc] s t) ∧
    ((∀ k : Nibble, s.keyPressed k = false) →
      ∃ t, exec (.ldVxK x) s = .next t ∧ t.wait = true ∧ t.waitX = x ∧ UnchangedBut [.wait, .waitX] s t)

/-! ### Drawing (47_draw.md) -/

/-- R216 to R218, pixel by pixel: `DRW` with `n > 0` rows in bounds XORs the sprite's bit onto every pixel, with the
start position reduced, columns wrapped and rows clipped, and VF is 1 exactly if a set pixel was under a 1 bit. The bit
order of a row is D17 (log entry 13). -/
def Obligations.DrawXorsEveryPixel : Prop :=
  ∀ (x y n : Nibble) (s : State), 0 < n.toNat → s.idx.toNat + n.toNat - 1 ≤ 4095 →
    ∃ t, exec (.drw x y n) s = .next t ∧
      (∀ r, r < 32 → ∀ c, c < 64 → t.pixel r c =
        (s.pixel r c ^^ spriteBit (s.bytesAt s.idx.toNat n.toNat) ((s.getV x).toNat % 64) ((s.getV y).toNat % 32) r c)) ∧
      (t.getV 0xF = 0 ∨ t.getV 0xF = 1) ∧
      (t.getV 0xF = 1 ↔ ∃ r, r < 32 ∧ ∃ c, c < 64 ∧ s.pixel r c = true ∧
        spriteBit (s.bytesAt s.idx.toNat n.toNat) ((s.getV x).toNat % 64) ((s.getV y).toNat % 32) r c = true) ∧
      t.pc = s.pc + 2 ∧ RegsUnchangedBut [0xF] s t ∧ UnchangedBut [.disp, .v, .pc] s t

/-- R221 (D19, log entry 15) and R216's error (D18, log entry 14): height 0 draws nothing, writes VF with 0 and cannot
fail, whatever `I`; a height whose rows leave memory reports the lowest address out of bounds (D23, log
entry 20), clipped rows included. -/
def Obligations.DrawHeightZeroAndOutOfBounds : Prop :=
  ∀ (x y : Nibble) (s : State),
    (∃ t, exec (.drw x y 0) s = .next t ∧ t.getV 0xF = 0 ∧ t.pc = s.pc + 2 ∧
      RegsUnchangedBut [0xF] s t ∧ UnchangedBut [.v, .pc] s t) ∧
    (∀ n : Nibble, 0 < n.toNat → s.idx.toNat + n.toNat - 1 > 4095 →
      exec (.drw x y n) s = .fault (.memoryAccess (max s.idx.toNat 4096)))

/-- R220: the same sprite drawn again at the same place, from any state with the same display, `I`, sprite bytes and
position, restores the display exactly, and its VF is 1 exactly if some drawn bit covered a pixel that was 0 before the
first draw; in particular, over a clear place, exactly if some drawn bit is 1. The bit order of a row is D17
(log entry 13). -/
def Obligations.DrawingTwiceRestoresTheDisplay : Prop :=
  ∀ (x y n : Nibble) (s t t' : State), exec (.drw x y n) s = .next t →
    t'.disp = t.disp → t'.idx = s.idx → (∀ k, k < n.toNat → t'.byteAt (s.idx.toNat + k) = s.byteAt (s.idx.toNat + k)) →
    t'.getV x = s.getV x → t'.getV y = s.getV y →
    let bit := spriteBit (s.bytesAt s.idx.toNat n.toNat) ((s.getV x).toNat % 64) ((s.getV y).toNat % 32)
    ∃ u, exec (.drw x y n) t' = .next u ∧ u.disp = s.disp ∧
      (u.getV 0xF = 1 ↔ ∃ r, r < 32 ∧ ∃ c, c < 64 ∧ bit r c = true ∧ s.pixel r c = false) ∧
      ((∀ r, r < 32 → ∀ c, c < 64 → bit r c = true → s.pixel r c = false) →
        (u.getV 0xF = 1 ↔ ∃ r, r < 32 ∧ ∃ c, c < 64 ∧ bit r c = true))

/-! ### The whole machine -/

/-- 10_state.md R21 to R25, R28 to R30, R32 to R34, R35 (b), 20_memory.md R51, 40_instruction_cycle.md R110, R111: no
tick changes the keys or the parameters, and each other piece changes only in a tick that executed one of the
instructions the rules name for it, or, for one register, `PC` and `WAIT`, in a waiting tick that found a key. A waiting
tick executes nothing, whatever word is at `PC` (49_host_operations.md R239). That the fetching tick of a key wait polls
is D21 (log entry 7). -/
def Obligations.EachPieceHasItsWriters : Prop :=
  ∀ s t : State, step s = .next t →
    let ran := fun i : Instr => s.wait = false ∧ s.fetchInstr = .ok i
    let resumed := s.wait = true ∧ ∃ k : Nibble, s.keyPressed k = true
    t.keys = s.keys ∧ t.cfg = s.cfg ∧
    (∀ r, t.getV r = s.getV r ∨ (resumed ∧ r = s.waitX) ∨
      ∃ i, ran i ∧ (namesDest i r ∨ (writesFlag i = true ∧ r = 0xF))) ∧
    (t.pc = s.pc ∨ (resumed ∧ t.pc = s.pc + 2) ∨ ∃ i, ran i ∧ t.pc = pcAfter i s) ∧
    (t.wait = s.wait ∨ (resumed ∧ t.wait = false) ∨
      ∃ x, ran (.ldVxK x) ∧ (∀ k : Nibble, s.keyPressed k = false) ∧ t.wait = true) ∧
    (t.waitX = s.waitX ∨ ∃ x, ran (.ldVxK x) ∧ (∀ k : Nibble, s.keyPressed k = false) ∧ t.waitX = x) ∧
    (t.dt = s.dt ∨ ∃ x, ran (.ldDtVx x)) ∧
    (t.st = s.st ∨ ∃ x, ran (.ldStVx x)) ∧
    (t.disp = s.disp ∨ ran .cls ∨ ∃ x y n, ran (.drw x y n)) ∧
    ((∀ a, t.byteAt a = s.byteAt a) ∨ ∃ x, ran (.storeRegs x) ∨ ran (.ldB x)) ∧
    (t.stack = s.stack ∨ ran .ret ∨ ∃ nnn, ran (.call nnn)) ∧
    (t.idx = s.idx ∨ (∃ nnn, ran (.ldI nnn)) ∨ ∃ x, ran (.addI x) ∨ ran (.ldF x)) ∧
    (t.draws = s.draws ∨ ∃ x kk, ran (.rnd x kk))

/-- R40 (a), (b) and the canonical memory (log entry 26): every tick keeps the invariant, from every state that has it.
The bound on stack entries rests on the pushed address `pc + 2` (D20, log entry 16). -/
def Obligations.StepKeepsTheInvariant : Prop :=
  ∀ s t : State, s.Inv → step s = .next t → t.Inv

/-- R40 (c): every tick keeps "while waiting, the word at `PC` is the key wait of register `WAITX`". -/
def Obligations.StepKeepsTheLatchedWait : Prop :=
  ∀ s t : State, s.WaitLatched → step s = .next t → t.WaitLatched

/-- Both invariants hold after reset, whatever the parameters; `WAIT = 0` after reset is D24 (log entry 3). -/
def Obligations.ResetHasTheInvariants : Prop := ∀ c : Config, (State.fresh c).Inv ∧ (State.fresh c).WaitLatched

/-- R40 (a), (b): every operation of the host keeps the invariant too, an operation that reports an error among them, so
it holds after any sequence of operations. -/
def Obligations.HostSequencesKeepTheInvariant : Prop :=
  ∀ (ops : List HostOp) (s : State), s.Inv → (afterOps ops s).Inv

/-- 49_host_operations.md R249 (D35, log entry 35): a machine finished at `a` stays exactly as it is under any number of ticks, each of
which reports no error. -/
def Obligations.FinishedMachineStays : Prop :=
  ∀ (s : State) (a : Addr12) (n : Nat), s.FinishedAt a →
    afterOps (List.replicate n .tick) s = s ∧ safeRun (List.replicate n .tick) s = true

/-! ### The host's operations (49_host_operations.md) -/

/-- R236, 10_state.md R38: `create` never fails and sets every field, in any state: memory zero but the font,
`PC` 0x200, stack empty, timers 0, display clear as the source says; `V`, `I`, keys and wait at 0 by the spec's decision
D24 (log entry 3). The parameters stay. -/
def Obligations.CreateResetsEveryField : Prop :=
  ∀ s : State, ∃ t, respond .create s = (.done, t) ∧
    (∀ k, k < 80 → s.cfg.font[k]? = some (t.byteAt (s.cfg.fontBase + k))) ∧
    (∀ a, a < s.cfg.fontBase ∨ s.cfg.fontBase + 80 ≤ a → t.byteAt a = 0) ∧
    t.pc = 0x200 ∧ t.sp = 0 ∧ t.dt = 0 ∧ t.st = 0 ∧ (∀ r c, t.pixel r c = false) ∧ t.sound = false ∧
    (∀ r, t.getV r = 0) ∧ t.idx = 0 ∧ (∀ k, t.keyPressed k = false) ∧ t.wait = false ∧ t.waitX = 0 ∧ t.cfg = s.cfg

/-- 70_reset_and_hazards.md R292: a tick directly after `create` reports DecodeError for the word 0. That 0nnn is
unassigned is D8, the payload D23, `WAIT = 0` after reset D24 (log entries 18, 20 and 3). -/
def Obligations.TickAfterCreateIsADecodeError : Prop :=
  ∀ s : State, s.cfg.Admissible → (respond .tick (respond .create s).2).1 = .fault (.decodeError 0)

/-- R238: `load` copies the image to 0x200 and changes nothing else; an image of more than 3584 bytes is refused with
LoadError and nothing changes. -/
def Obligations.LoadCopiesTheImage : Prop :=
  ∀ (bytes : List Byte) (s : State),
    (bytes.length > 3584 → (∃ n, (respond (.load bytes) s).1 = .fault (.loadError n)) ∧ (respond (.load bytes) s).2 = s) ∧
    (bytes.length ≤ 3584 →
      ∃ t, respond (.load bytes) s = (.done, t) ∧ (∀ k, k < bytes.length → bytes[k]? = some (t.byteAt (0x200 + k))) ∧
        MemUnchangedOutside 0x200 bytes.length s t ∧ UnchangedBut [.mem] s t)

/-- R241: `decrement_timers` takes one off each timer, not below 0, and changes nothing else; `sound` falls when `ST`
goes from 1 to 0. -/
def Obligations.DecrementTimersStopsAtZero : Prop :=
  ∀ s : State, ∃ t, respond .decrementTimers s = (.done, t) ∧ t.dt.toNat = s.dt.toNat - 1 ∧ t.st.toNat = s.st.toNat - 1 ∧
    (s.st = 1 → s.sound = true ∧ t.sound = false) ∧ UnchangedBut [.dt, .st] s t

/-- R243: `set_key` writes one latch bit and nothing else, and nothing at all if the key already is so; a code above 0xF
reports InvalidKeyCode and changes nothing. -/
def Obligations.SetKeyWritesOneLatchBit : Prop :=
  ∀ (code : Nat) (pressed : Bool) (s : State),
    (code > 0xF → respond (.setKey code pressed) s = (.fault (.invalidKeyCode code), s)) ∧
    (∀ k : Nibble, k.toNat = code →
      ∃ t, respond (.setKey code pressed) s = (.done, t) ∧ t.keyPressed k = pressed ∧
        (∀ j : Nibble, j ≠ k → t.keyPressed j = s.keyPressed j) ∧ UnchangedBut [.keys] s t ∧
        (s.keyPressed k = pressed → t = s))

/-- 10_state.md R29, R30, R40 (e), 45_timers.md R199: over every operation of the host, a timer rises only in a tick that
executed its own load instruction. -/
def Obligations.TimersRiseOnlyByTheirLoad : Prop :=
  ∀ (op : HostOp) (s : State),
    (s.dt.toNat < (respond op s).2.dt.toNat → op = .tick ∧ s.wait = false ∧ ∃ x, s.fetchInstr = .ok (.ldDtVx x)) ∧
    (s.st.toNat < (respond op s).2.st.toNat → op = .tick ∧ s.wait = false ∧ ∃ x, s.fetchInstr = .ok (.ldStVx x))

/-- R245, R246: the accessors read the fields; a memory read above 4095 reports MemoryAccessError (D34, log entry 34); column `c` of a
row mask is bit `63 - c` (D29, log entry 13). -/
def Obligations.AccessorsReadTheState : Prop :=
  ∀ s : State, (∀ x, s.readV x = s.getV x) ∧ s.readI = s.idx ∧ s.readPc = s.pc ∧
    (∀ a, a ≤ 4095 → s.readMem a = .ok (s.byteAt a)) ∧ (∀ a, a > 4095 → s.readMem a = .error (.memoryAccess a)) ∧
    (∀ r c, r < 32 → c < 64 → s.pixelRows[r]?.map (fun m => m.getLsbD (63 - c)) = some (s.pixel r c))

/-- 70_reset_and_hazards.md R296, 49_host_operations.md R247 (D1, D33, log entries 29 and 39): a run of cycles that has
a meaning is a sequence of whole operations, one after the other; a cycle has none exactly when, without reset, it holds
two requests or a request to a block that is busy with another operation; and a run with such a cycle has none,
whatever comes after. -/
def Obligations.CyclesAreSerialisedOperations : Prop :=
  (∀ (cs : List Cycle) (b b' : Block) (ds : List Completion), afterCycles cs b = some (b', ds) →
    b'.core = afterOps (ds.map Prod.fst) b.core ∧ ds = answers (ds.map Prod.fst) b.core) ∧
  (∀ (c : Cycle) (b : Block), b.edge c = none ↔ c.strobes.rst = false ∧
    (2 ≤ c.strobes.requests.length ∨ (b.pending ≠ none ∧ c.strobes.requests ≠ []))) ∧
  (∀ (cs rest : List Cycle) (c : Cycle) (b b' : Block) (ds : List Completion), afterCycles cs b = some (b', ds) →
    b'.edge c = none → afterCycles (cs ++ c :: rest) b = none)

/-- 49_host_operations.md R247 (D1, log entries 29 and 39), edge by edge: reset is `create` at once; a request to a free
block, or the operation in progress, either completes, with `done`, the error's kind and a tick's word at the outputs,
or keeps the block busy with its state held and `done` low; with no request a free block holds. After every edge, in a
busy block too, `sound` is whether `ST` is above 0 (10_state.md R31), and a load request is the load of `load_len`
bytes. -/
def Obligations.SignalsAnswerTheRequest : Prop :=
  ∀ (c : Cycle) (b : Block) (a : Addr12),
    (c.strobes.rst = true → ∃ t d, b.edge c = some (⟨t, none⟩, some d) ∧ respond .create b.core = (.done, t) ∧
      (Block.outputs ⟨t, none⟩ (some d) a).done = true ∧ (Block.outputs ⟨t, none⟩ (some d) a).fault = false) ∧
    (c.strobes.rst = false → ∀ op : HostOp,
      (b.pending = none ∧ c.strobes.requests = [op]) ∨ (b.pending = some op ∧ c.strobes.requests = []) →
      (c.completes = true →
        let r := (respond op b.core).1
        let t := (respond op b.core).2
        let o := Block.outputs ⟨t, none⟩ (some (op, r)) a
        b.edge c = some (⟨t, none⟩, some (op, r)) ∧ o.done = true ∧ (o.fault = true ↔ ∃ f, r = .fault f) ∧
          (∀ f, r = .fault f → o.faultKind.map BitVec.toNat = some f.code) ∧
          (op = .tick → o.instrWord = some r.word) ∧ o.shown = some (t.shown a)) ∧
      (c.completes = false → b.edge c = some (⟨b.core, some op⟩, none) ∧ (Block.outputs ⟨b.core, some op⟩ none a).done = false)) ∧
    (c.strobes.rst = false → b.pending = none → c.strobes.requests = [] →
      b.edge c = some (b, none) ∧ (b.outputs none a).done = false) ∧
    (∀ d, (b.outputs d a).sound = true ↔ 0 < b.core.st.toNat) ∧
    (∀ l, c.strobes.loadReq = some l → ∃ bytes, .load bytes ∈ c.strobes.requests ∧ bytes.length = l.len.toNat)
end

