-- ==== Sys2Proof/Laws/State.lean ====
section
/-! SUPPORT. For each update of the state, what each field reads after it. -/

namespace Sys2Proof.Machine

@[simp] theorem memSize_eq : memSize = 4096 := rfl

variable (s : State)

/-! ### `State.setV` -/

@[simp] theorem State.setV_cfg (x : Nibble) (b : Byte) : (s.setV x b).cfg = s.cfg := rfl
@[simp] theorem State.setV_mem (x : Nibble) (b : Byte) : (s.setV x b).mem = s.mem := rfl
@[simp] theorem State.setV_v (x : Nibble) (b : Byte) : (s.setV x b).v = s.v.set x.toNat b x.isLt := rfl
@[simp] theorem State.setV_idx (x : Nibble) (b : Byte) : (s.setV x b).idx = s.idx := rfl
@[simp] theorem State.setV_pc (x : Nibble) (b : Byte) : (s.setV x b).pc = s.pc := rfl
@[simp] theorem State.setV_stack (x : Nibble) (b : Byte) : (s.setV x b).stack = s.stack := rfl
@[simp] theorem State.setV_dt (x : Nibble) (b : Byte) : (s.setV x b).dt = s.dt := rfl
@[simp] theorem State.setV_st (x : Nibble) (b : Byte) : (s.setV x b).st = s.st := rfl
@[simp] theorem State.setV_disp (x : Nibble) (b : Byte) : (s.setV x b).disp = s.disp := rfl
@[simp] theorem State.setV_keys (x : Nibble) (b : Byte) : (s.setV x b).keys = s.keys := rfl
@[simp] theorem State.setV_wait (x : Nibble) (b : Byte) : (s.setV x b).wait = s.wait := rfl
@[simp] theorem State.setV_waitX (x : Nibble) (b : Byte) : (s.setV x b).waitX = s.waitX := rfl
@[simp] theorem State.setV_draws (x : Nibble) (b : Byte) : (s.setV x b).draws = s.draws := rfl

/-! ### `State.setI` -/

@[simp] theorem State.setI_cfg (w : Word) : (s.setI w).cfg = s.cfg := rfl
@[simp] theorem State.setI_mem (w : Word) : (s.setI w).mem = s.mem := rfl
@[simp] theorem State.setI_v (w : Word) : (s.setI w).v = s.v := rfl
@[simp] theorem State.setI_idx (w : Word) : (s.setI w).idx = w := rfl
@[simp] theorem State.setI_pc (w : Word) : (s.setI w).pc = s.pc := rfl
@[simp] theorem State.setI_stack (w : Word) : (s.setI w).stack = s.stack := rfl
@[simp] theorem State.setI_dt (w : Word) : (s.setI w).dt = s.dt := rfl
@[simp] theorem State.setI_st (w : Word) : (s.setI w).st = s.st := rfl
@[simp] theorem State.setI_disp (w : Word) : (s.setI w).disp = s.disp := rfl
@[simp] theorem State.setI_keys (w : Word) : (s.setI w).keys = s.keys := rfl
@[simp] theorem State.setI_wait (w : Word) : (s.setI w).wait = s.wait := rfl
@[simp] theorem State.setI_waitX (w : Word) : (s.setI w).waitX = s.waitX := rfl
@[simp] theorem State.setI_draws (w : Word) : (s.setI w).draws = s.draws := rfl

/-! ### `State.jump` -/

@[simp] theorem State.jump_cfg (w : Word) : (s.jump w).cfg = s.cfg := rfl
@[simp] theorem State.jump_mem (w : Word) : (s.jump w).mem = s.mem := rfl
@[simp] theorem State.jump_v (w : Word) : (s.jump w).v = s.v := rfl
@[simp] theorem State.jump_idx (w : Word) : (s.jump w).idx = s.idx := rfl
@[simp] theorem State.jump_pc (w : Word) : (s.jump w).pc = w := rfl
@[simp] theorem State.jump_stack (w : Word) : (s.jump w).stack = s.stack := rfl
@[simp] theorem State.jump_dt (w : Word) : (s.jump w).dt = s.dt := rfl
@[simp] theorem State.jump_st (w : Word) : (s.jump w).st = s.st := rfl
@[simp] theorem State.jump_disp (w : Word) : (s.jump w).disp = s.disp := rfl
@[simp] theorem State.jump_keys (w : Word) : (s.jump w).keys = s.keys := rfl
@[simp] theorem State.jump_wait (w : Word) : (s.jump w).wait = s.wait := rfl
@[simp] theorem State.jump_waitX (w : Word) : (s.jump w).waitX = s.waitX := rfl
@[simp] theorem State.jump_draws (w : Word) : (s.jump w).draws = s.draws := rfl

/-! ### `State.advance` -/

@[simp] theorem State.advance_cfg : (s.advance).cfg = s.cfg := rfl
@[simp] theorem State.advance_mem : (s.advance).mem = s.mem := rfl
@[simp] theorem State.advance_v : (s.advance).v = s.v := rfl
@[simp] theorem State.advance_idx : (s.advance).idx = s.idx := rfl
@[simp] theorem State.advance_pc : (s.advance).pc = s.pc + 2 := rfl
@[simp] theorem State.advance_stack : (s.advance).stack = s.stack := rfl
@[simp] theorem State.advance_dt : (s.advance).dt = s.dt := rfl
@[simp] theorem State.advance_st : (s.advance).st = s.st := rfl
@[simp] theorem State.advance_disp : (s.advance).disp = s.disp := rfl
@[simp] theorem State.advance_keys : (s.advance).keys = s.keys := rfl
@[simp] theorem State.advance_wait : (s.advance).wait = s.wait := rfl
@[simp] theorem State.advance_waitX : (s.advance).waitX = s.waitX := rfl
@[simp] theorem State.advance_draws : (s.advance).draws = s.draws := rfl

/-! ### `State.skipIf` -/

@[simp] theorem State.skipIf_cfg (b : Bool) : (s.skipIf b).cfg = s.cfg := rfl
@[simp] theorem State.skipIf_mem (b : Bool) : (s.skipIf b).mem = s.mem := rfl
@[simp] theorem State.skipIf_v (b : Bool) : (s.skipIf b).v = s.v := rfl
@[simp] theorem State.skipIf_idx (b : Bool) : (s.skipIf b).idx = s.idx := rfl
@[simp] theorem State.skipIf_pc (b : Bool) : (s.skipIf b).pc = if b then s.pc + 4 else s.pc + 2 := rfl
@[simp] theorem State.skipIf_stack (b : Bool) : (s.skipIf b).stack = s.stack := rfl
@[simp] theorem State.skipIf_dt (b : Bool) : (s.skipIf b).dt = s.dt := rfl
@[simp] theorem State.skipIf_st (b : Bool) : (s.skipIf b).st = s.st := rfl
@[simp] theorem State.skipIf_disp (b : Bool) : (s.skipIf b).disp = s.disp := rfl
@[simp] theorem State.skipIf_keys (b : Bool) : (s.skipIf b).keys = s.keys := rfl
@[simp] theorem State.skipIf_wait (b : Bool) : (s.skipIf b).wait = s.wait := rfl
@[simp] theorem State.skipIf_waitX (b : Bool) : (s.skipIf b).waitX = s.waitX := rfl
@[simp] theorem State.skipIf_draws (b : Bool) : (s.skipIf b).draws = s.draws := rfl

/-! ### `State.setByte` -/

@[simp] theorem State.setByte_cfg (a : Nat) (b : Byte) : (s.setByte a b).cfg = s.cfg := rfl
@[simp] theorem State.setByte_mem (a : Nat) (b : Byte) : (s.setByte a b).mem = if b = defaultByte s.cfg a then Memory.erase s.mem a else Memory.insert (Memory.erase s.mem a) a b := rfl
@[simp] theorem State.setByte_v (a : Nat) (b : Byte) : (s.setByte a b).v = s.v := rfl
@[simp] theorem State.setByte_idx (a : Nat) (b : Byte) : (s.setByte a b).idx = s.idx := rfl
@[simp] theorem State.setByte_pc (a : Nat) (b : Byte) : (s.setByte a b).pc = s.pc := rfl
@[simp] theorem State.setByte_stack (a : Nat) (b : Byte) : (s.setByte a b).stack = s.stack := rfl
@[simp] theorem State.setByte_dt (a : Nat) (b : Byte) : (s.setByte a b).dt = s.dt := rfl
@[simp] theorem State.setByte_st (a : Nat) (b : Byte) : (s.setByte a b).st = s.st := rfl
@[simp] theorem State.setByte_disp (a : Nat) (b : Byte) : (s.setByte a b).disp = s.disp := rfl
@[simp] theorem State.setByte_keys (a : Nat) (b : Byte) : (s.setByte a b).keys = s.keys := rfl
@[simp] theorem State.setByte_wait (a : Nat) (b : Byte) : (s.setByte a b).wait = s.wait := rfl
@[simp] theorem State.setByte_waitX (a : Nat) (b : Byte) : (s.setByte a b).waitX = s.waitX := rfl
@[simp] theorem State.setByte_draws (a : Nat) (b : Byte) : (s.setByte a b).draws = s.draws := rfl

/-! ### `State.setVFlag` -/

@[simp] theorem State.setVFlag_cfg (x : Nibble) (r : Byte) (f : Bool) : (s.setVFlag x r f).cfg = s.cfg := rfl
@[simp] theorem State.setVFlag_mem (x : Nibble) (r : Byte) (f : Bool) : (s.setVFlag x r f).mem = s.mem := rfl
@[simp] theorem State.setVFlag_v (x : Nibble) (r : Byte) (f : Bool) : (s.setVFlag x r f).v = (s.v.set x.toNat r x.isLt).set vf.toNat (flagByte f) vf.isLt := rfl
@[simp] theorem State.setVFlag_idx (x : Nibble) (r : Byte) (f : Bool) : (s.setVFlag x r f).idx = s.idx := rfl
@[simp] theorem State.setVFlag_pc (x : Nibble) (r : Byte) (f : Bool) : (s.setVFlag x r f).pc = s.pc := rfl
@[simp] theorem State.setVFlag_stack (x : Nibble) (r : Byte) (f : Bool) : (s.setVFlag x r f).stack = s.stack := rfl
@[simp] theorem State.setVFlag_dt (x : Nibble) (r : Byte) (f : Bool) : (s.setVFlag x r f).dt = s.dt := rfl
@[simp] theorem State.setVFlag_st (x : Nibble) (r : Byte) (f : Bool) : (s.setVFlag x r f).st = s.st := rfl
@[simp] theorem State.setVFlag_disp (x : Nibble) (r : Byte) (f : Bool) : (s.setVFlag x r f).disp = s.disp := rfl
@[simp] theorem State.setVFlag_keys (x : Nibble) (r : Byte) (f : Bool) : (s.setVFlag x r f).keys = s.keys := rfl
@[simp] theorem State.setVFlag_wait (x : Nibble) (r : Byte) (f : Bool) : (s.setVFlag x r f).wait = s.wait := rfl
@[simp] theorem State.setVFlag_waitX (x : Nibble) (r : Byte) (f : Bool) : (s.setVFlag x r f).waitX = s.waitX := rfl
@[simp] theorem State.setVFlag_draws (x : Nibble) (r : Byte) (f : Bool) : (s.setVFlag x r f).draws = s.draws := rfl

/-! ### `State.decrementTimers` -/

@[simp] theorem State.decrementTimers_cfg : (s.decrementTimers).cfg = s.cfg := rfl
@[simp] theorem State.decrementTimers_mem : (s.decrementTimers).mem = s.mem := rfl
@[simp] theorem State.decrementTimers_v : (s.decrementTimers).v = s.v := rfl
@[simp] theorem State.decrementTimers_idx : (s.decrementTimers).idx = s.idx := rfl
@[simp] theorem State.decrementTimers_pc : (s.decrementTimers).pc = s.pc := rfl
@[simp] theorem State.decrementTimers_stack : (s.decrementTimers).stack = s.stack := rfl
@[simp] theorem State.decrementTimers_dt : (s.decrementTimers).dt = countDown s.dt := rfl
@[simp] theorem State.decrementTimers_st : (s.decrementTimers).st = countDown s.st := rfl
@[simp] theorem State.decrementTimers_disp : (s.decrementTimers).disp = s.disp := rfl
@[simp] theorem State.decrementTimers_keys : (s.decrementTimers).keys = s.keys := rfl
@[simp] theorem State.decrementTimers_wait : (s.decrementTimers).wait = s.wait := rfl
@[simp] theorem State.decrementTimers_waitX : (s.decrementTimers).waitX = s.waitX := rfl
@[simp] theorem State.decrementTimers_draws : (s.decrementTimers).draws = s.draws := rfl

/-! ### Field updates written as records -/

@[simp] theorem State.byteAt_with_v (v : Vector Byte 16) (a : Nat) : ({ s with v := v }).byteAt a = s.byteAt a := rfl
@[simp] theorem State.byteAt_with_disp (d : Display) (a : Nat) : ({ s with disp := d }).byteAt a = s.byteAt a := rfl
@[simp] theorem State.byteAt_with_draws (n : Nat) (a : Nat) : ({ s with draws := n }).byteAt a = s.byteAt a := rfl
@[simp] theorem State.byteAt_setV (x : Nibble) (b : Byte) (a : Nat) : (s.setV x b).byteAt a = s.byteAt a := rfl
@[simp] theorem State.byteAt_with_stack (l : List Word) (a : Nat) : ({ s with stack := l }).byteAt a = s.byteAt a := rfl
@[simp] theorem State.byteAt_with_dt (b : Byte) (a : Nat) : ({ s with dt := b }).byteAt a = s.byteAt a := rfl
@[simp] theorem State.byteAt_with_st (b : Byte) (a : Nat) : ({ s with st := b }).byteAt a = s.byteAt a := rfl
@[simp] theorem State.byteAt_setVFlag (x : Nibble) (r : Byte) (f : Bool) (a : Nat) :
    (s.setVFlag x r f).byteAt a = s.byteAt a := rfl
@[simp] theorem State.byteAt_setI (w : Word) (a : Nat) : (s.setI w).byteAt a = s.byteAt a := rfl
@[simp] theorem State.byteAt_jump (w : Word) (a : Nat) : (s.jump w).byteAt a = s.byteAt a := rfl
@[simp] theorem State.byteAt_advance (a : Nat) : s.advance.byteAt a = s.byteAt a := rfl
@[simp] theorem State.byteAt_skipIf (b : Bool) (a : Nat) : (s.skipIf b).byteAt a = s.byteAt a := rfl
@[simp] theorem State.getV_with_disp (d : Display) (r : Nibble) : ({ s with disp := d }).getV r = s.getV r := rfl
@[simp] theorem State.getV_with_draws (n : Nat) (r : Nibble) : ({ s with draws := n }).getV r = s.getV r := rfl
@[simp] theorem State.getV_with_stack (l : List Word) (r : Nibble) : ({ s with stack := l }).getV r = s.getV r := rfl
@[simp] theorem State.getV_with_dt (b : Byte) (r : Nibble) : ({ s with dt := b }).getV r = s.getV r := rfl
@[simp] theorem State.getV_with_st (b : Byte) (r : Nibble) : ({ s with st := b }).getV r = s.getV r := rfl
@[simp] theorem State.getV_setI (w : Word) (r : Nibble) : (s.setI w).getV r = s.getV r := rfl
@[simp] theorem State.getV_jump (w : Word) (r : Nibble) : (s.jump w).getV r = s.getV r := rfl
@[simp] theorem State.getV_advance (r : Nibble) : s.advance.getV r = s.getV r := rfl
@[simp] theorem State.getV_skipIf (b : Bool) (r : Nibble) : (s.skipIf b).getV r = s.getV r := rfl
@[simp] theorem State.getV_setByte (a : Nat) (b : Byte) (r : Nibble) : (s.setByte a b).getV r = s.getV r := rfl

end Sys2Proof.Machine
end

