-- ==== Sys2Proof/Laws/Memory.lean ====
section
/-! SUPPORT. Memory: reads after writes, the canonical form, and the range accesses. -/

namespace Sys2Proof.Machine

/-! ### The list -/

theorem Memory.find_erase_same (m : Memory) (a : Nat) (d : Byte) : (Memory.erase m a).find a d = d := by
  induction m with
  | nil => rfl
  | cons p t ih =>
    obtain ⟨k, b⟩ := p
    by_cases h : k = a
    · simpa [Memory.erase, h] using ih
    · simpa [Memory.erase, Memory.find, h] using ih

theorem Memory.find_erase_other (m : Memory) (a k : Nat) (d : Byte) (h : k ≠ a) :
    (Memory.erase m a).find k d = Memory.find m k d := by
  induction m with
  | nil => rfl
  | cons p t ih =>
    obtain ⟨j, b⟩ := p
    by_cases hj : j = a
    · have hk : j ≠ k := fun e => h (e.symm.trans hj)
      simp only [Memory.find, if_neg hk, ← ih]
      simp [Memory.erase, hj]
    · have e : Memory.erase ((j, b) :: t) a = (j, b) :: Memory.erase t a := by simp [Memory.erase, hj]
      rw [e]
      simp only [Memory.find, ih]

theorem Memory.find_insert_other (m : Memory) (a k : Nat) (b d : Byte) (h : k ≠ a) :
    (Memory.insert m a b).find k d = Memory.find m k d := by
  induction m with
  | nil => simp [Memory.insert, Memory.find, Ne.symm h]
  | cons p t ih =>
    obtain ⟨j, v⟩ := p
    by_cases hj : a < j
    · simp [Memory.insert, hj, Memory.find, Ne.symm h]
    · simp [Memory.insert, hj, Memory.find, ih]

/-- No entry of the list is for address `a`. -/
def Memory.Lacks (m : Memory) (a : Nat) : Prop := ∀ p ∈ m, p.1 ≠ a

theorem Memory.erase_lacks (m : Memory) (a : Nat) : (Memory.erase m a).Lacks a := by
  intro p hp
  simpa [Memory.erase] using (List.mem_filter.mp hp).2

theorem Memory.find_insert_same (m : Memory) (a : Nat) (b d : Byte) (h : Memory.Lacks m a) :
    (Memory.insert m a b).find a d = b := by
  induction m with
  | nil => simp [Memory.insert, Memory.find]
  | cons p t ih =>
    obtain ⟨j, v⟩ := p
    have hj : j ≠ a := h (j, v) List.mem_cons_self
    have ht := ih (fun q hq => h q (List.mem_cons_of_mem _ hq))
    by_cases hl : a < j
    · simp [Memory.insert, hl, Memory.find]
    · simp [Memory.insert, hl, Memory.find, hj, ht]

/-! ### One byte -/

@[simp] theorem State.byteAt_setByte_same (s : State) (a : Nat) (b : Byte) : (s.setByte a b).byteAt a = b := by
  unfold State.byteAt
  by_cases h : b = defaultByte s.cfg a
  · simp only [State.setByte_mem, State.setByte_cfg, if_pos h, Memory.find_erase_same]
    exact h.symm
  · simp only [State.setByte_mem, State.setByte_cfg, if_neg h]
    exact Memory.find_insert_same _ _ _ _ (Memory.erase_lacks _ _)

theorem State.byteAt_setByte_other (s : State) (a k : Nat) (b : Byte) (h : k ≠ a) :
    (s.setByte a b).byteAt k = s.byteAt k := by
  unfold State.byteAt
  by_cases hd : b = defaultByte s.cfg a
  · simp only [State.setByte_mem, State.setByte_cfg, if_pos hd, Memory.find_erase_other _ _ _ _ h]
  · simp only [State.setByte_mem, State.setByte_cfg, if_neg hd, Memory.find_insert_other _ _ _ _ _ h,
      Memory.find_erase_other _ _ _ _ h]

theorem State.byteAt_setByte (s : State) (a k : Nat) (b : Byte) :
    (s.setByte a b).byteAt k = if k = a then b else s.byteAt k := by
  by_cases h : k = a
  · simp [h]
  · simp [h, State.byteAt_setByte_other]

/-! ### The canonical form -/

theorem Memory.wfFrom_mono (c : Config) (m : Memory) {lo lo' : Nat} (h : lo' ≤ lo) (hm : Memory.wfFrom c lo m = true) :
    Memory.wfFrom c lo' m = true := by
  cases m with
  | nil => rfl
  | cons p t =>
    obtain ⟨k, b⟩ := p
    simp only [Memory.wfFrom, Bool.and_eq_true, decide_eq_true_eq] at hm ⊢
    exact ⟨⟨⟨h.trans hm.1.1.1, hm.1.1.2⟩, hm.1.2⟩, hm.2⟩

theorem Memory.wfFrom_erase (c : Config) (m : Memory) (a : Nat) {lo : Nat} (hm : Memory.wfFrom c lo m = true) :
    Memory.wfFrom c lo (Memory.erase m a) = true := by
  induction m generalizing lo with
  | nil => rfl
  | cons p t ih =>
    obtain ⟨k, b⟩ := p
    simp only [Memory.wfFrom, Bool.and_eq_true, decide_eq_true_eq] at hm
    have ht := ih hm.2
    by_cases h : k = a
    · have e : Memory.erase ((k, b) :: t) a = Memory.erase t a := by simp [Memory.erase, h]
      rw [e]
      exact Memory.wfFrom_mono c _ (by omega) ht
    · have e : Memory.erase ((k, b) :: t) a = (k, b) :: Memory.erase t a := by simp [Memory.erase, h]
      rw [e]
      simp only [Memory.wfFrom, Bool.and_eq_true, decide_eq_true_eq]
      exact ⟨hm.1, ht⟩

theorem Memory.wfFrom_insert (c : Config) (m : Memory) (a : Nat) (b : Byte) {lo : Nat} (hm : Memory.wfFrom c lo m = true)
    (hl : Memory.Lacks m a) (h1 : lo ≤ a) (h2 : a < memSize) (h3 : b ≠ defaultByte c a) :
    Memory.wfFrom c lo (Memory.insert m a b) = true := by
  induction m generalizing lo with
  | nil => simp [Memory.insert, Memory.wfFrom, h1, h2, h3]
  | cons p t ih =>
    obtain ⟨k, v⟩ := p
    simp only [Memory.wfFrom, Bool.and_eq_true, decide_eq_true_eq] at hm
    have hk : k ≠ a := hl (k, v) List.mem_cons_self
    by_cases h : a < k
    · simp only [Memory.insert, if_pos h, Memory.wfFrom, Bool.and_eq_true, decide_eq_true_eq, bne_iff_ne]
      exact ⟨⟨⟨h1, h2⟩, h3⟩, ⟨⟨by omega, hm.1.1.2⟩, by simpa using hm.1.2⟩, hm.2⟩
    · have ht := ih hm.2 (fun q hq => hl q (List.mem_cons_of_mem _ hq)) (by omega)
      simp only [Memory.insert, if_neg h, Memory.wfFrom, Bool.and_eq_true, decide_eq_true_eq]
      exact ⟨hm.1, ht⟩

/-- Writing one byte in bounds keeps memory canonical. -/
theorem State.setByte_wf (s : State) (a : Nat) (b : Byte) (h : a < memSize) (hm : Memory.wf s.cfg s.mem = true) :
    Memory.wf (s.setByte a b).cfg (s.setByte a b).mem = true := by
  have he : Memory.wfFrom s.cfg 0 (Memory.erase s.mem a) = true := Memory.wfFrom_erase _ _ _ hm
  by_cases hd : b = defaultByte s.cfg a
  · simpa only [Memory.wf, State.setByte_mem, State.setByte_cfg, if_pos hd] using he
  · simp only [Memory.wf, State.setByte_mem, State.setByte_cfg, if_neg hd]
    exact Memory.wfFrom_insert _ _ _ _ he (Memory.erase_lacks _ _) (Nat.zero_le _) h hd

/-- Reset memory is canonical. -/
theorem State.fresh_wf (c : Config) : Memory.wf (State.fresh c).cfg (State.fresh c).mem = true := rfl

/-! ### Many bytes -/

theorem State.setBytes_eq (s : State) (a : Nat) (bs : List Byte) : ∃ m, s.setBytes a bs = { s with mem := m } := by
  induction bs generalizing s a with
  | nil => exact ⟨s.mem, rfl⟩
  | cons b t ih =>
    obtain ⟨m, hm⟩ := ih (s.setByte a b) (a + 1)
    exact ⟨m, hm⟩

section
variable (s : State) (a : Nat) (bs : List Byte)

@[simp] theorem State.setBytes_cfg : (s.setBytes a bs).cfg = s.cfg := by obtain ⟨m, h⟩ := s.setBytes_eq a bs; rw [h]
@[simp] theorem State.setBytes_v : (s.setBytes a bs).v = s.v := by obtain ⟨m, h⟩ := s.setBytes_eq a bs; rw [h]
@[simp] theorem State.setBytes_idx : (s.setBytes a bs).idx = s.idx := by obtain ⟨m, h⟩ := s.setBytes_eq a bs; rw [h]
@[simp] theorem State.setBytes_pc : (s.setBytes a bs).pc = s.pc := by obtain ⟨m, h⟩ := s.setBytes_eq a bs; rw [h]
@[simp] theorem State.setBytes_stack : (s.setBytes a bs).stack = s.stack := by obtain ⟨m, h⟩ := s.setBytes_eq a bs; rw [h]
@[simp] theorem State.setBytes_dt : (s.setBytes a bs).dt = s.dt := by obtain ⟨m, h⟩ := s.setBytes_eq a bs; rw [h]
@[simp] theorem State.setBytes_st : (s.setBytes a bs).st = s.st := by obtain ⟨m, h⟩ := s.setBytes_eq a bs; rw [h]
@[simp] theorem State.setBytes_disp : (s.setBytes a bs).disp = s.disp := by obtain ⟨m, h⟩ := s.setBytes_eq a bs; rw [h]
@[simp] theorem State.setBytes_keys : (s.setBytes a bs).keys = s.keys := by obtain ⟨m, h⟩ := s.setBytes_eq a bs; rw [h]
@[simp] theorem State.setBytes_wait : (s.setBytes a bs).wait = s.wait := by obtain ⟨m, h⟩ := s.setBytes_eq a bs; rw [h]
@[simp] theorem State.setBytes_waitX : (s.setBytes a bs).waitX = s.waitX := by obtain ⟨m, h⟩ := s.setBytes_eq a bs; rw [h]
@[simp] theorem State.setBytes_draws : (s.setBytes a bs).draws = s.draws := by obtain ⟨m, h⟩ := s.setBytes_eq a bs; rw [h]
@[simp] theorem State.getV_setBytes (r : Nibble) : (s.setBytes a bs).getV r = s.getV r := by simp [State.getV]

end

/-- After a write of a range: the written bytes inside it, the old ones outside. -/
theorem State.byteAt_setBytes (s : State) (a : Nat) (bs : List Byte) (k : Nat) :
    (s.setBytes a bs).byteAt k = if h : a ≤ k ∧ k < a + bs.length then bs[k - a] else s.byteAt k := by
  induction bs generalizing s a with
  | nil =>
    simp [State.setBytes]
  | cons b t ih =>
    rw [State.setBytes, ih, State.byteAt_setByte]
    by_cases hk : k = a
    · subst hk
      simp
    · by_cases hi : a + 1 ≤ k ∧ k < a + 1 + t.length
      · have hj : a ≤ k ∧ k < a + (b :: t).length := by simp only [List.length_cons]; omega
        rw [dif_pos hi, dif_pos hj]
        have e : k - a = (k - (a + 1)) + 1 := by omega
        simp only [e, List.getElem_cons_succ]
      · have hj : ¬ (a ≤ k ∧ k < a + (b :: t).length) := by simp only [List.length_cons]; omega
        rw [dif_neg hi, dif_neg hj, if_neg hk]

/-- Writing a range in bounds keeps memory canonical. -/
theorem State.setBytes_wf (s : State) (a : Nat) (bs : List Byte) (h : bs = [] ∨ a + bs.length ≤ memSize)
    (hm : Memory.wf s.cfg s.mem = true) : Memory.wf s.cfg (s.setBytes a bs).mem = true := by
  induction bs generalizing s a with
  | nil => exact hm
  | cons b t ih =>
    have hl : a + (t.length + 1) ≤ memSize := by simpa using h
    have h1 := State.setByte_wf s a b (by omega) hm
    exact ih (s.setByte a b) (a + 1) (by omega) h1

/-! ### Checked accesses -/

/-- The check of a range, as a condition (20_memory.md R60). -/
theorem rangeFault_eq (a n : Nat) :
    rangeFault a n = if n = 0 ∨ a + n ≤ memSize then none else some (.memoryAccess (max a memSize)) := rfl

/-- A range read either gives the bytes of a range in bounds or reports the lowest address out of bounds. -/
theorem State.loadRange_cases (s : State) (a n : Nat) :
    (s.loadRange a n = .ok (s.bytesAt a n) ∧ (n = 0 ∨ a + n ≤ memSize)) ∨
      (s.loadRange a n = .error (.memoryAccess (max a memSize)) ∧ ¬ (n = 0 ∨ a + n ≤ memSize)) := by
  by_cases h : n = 0 ∨ a + n ≤ memSize
  · exact .inl ⟨by simp only [State.loadRange, rangeFault_eq, if_pos h], h⟩
  · exact .inr ⟨by simp only [State.loadRange, rangeFault_eq, if_neg h], h⟩

/-- A range write either writes a range in bounds or reports the lowest address out of bounds. -/
theorem State.storeRange_cases (s : State) (a : Nat) (bs : List Byte) :
    (s.storeRange a bs = .ok (s.setBytes a bs) ∧ (bs.length = 0 ∨ a + bs.length ≤ memSize)) ∨
      (s.storeRange a bs = .error (.memoryAccess (max a memSize)) ∧ ¬ (bs.length = 0 ∨ a + bs.length ≤ memSize)) := by
  by_cases h : bs.length = 0 ∨ a + bs.length ≤ memSize
  · exact .inl ⟨by simp only [State.storeRange, rangeFault_eq, if_pos h], h⟩
  · exact .inr ⟨by simp only [State.storeRange, rangeFault_eq, if_neg h], h⟩

/-- A successful range write is in bounds and writes exactly the range. -/
theorem State.storeRange_ok {s t : State} {a : Nat} {bs : List Byte} (h : s.storeRange a bs = .ok t) :
    t = s.setBytes a bs ∧ (bs.length = 0 ∨ a + bs.length ≤ memSize) := by
  obtain ⟨e, hb⟩ | ⟨e, _⟩ := s.storeRange_cases a bs
  · exact ⟨by rw [e] at h; exact (Except.ok.inj h).symm, hb⟩
  · rw [e] at h
    cases h

/-- A successful range write keeps memory canonical. -/
theorem State.storeRange_wf {s t : State} {a : Nat} {bs : List Byte} (h : s.storeRange a bs = .ok t)
    (hm : Memory.wf s.cfg s.mem = true) : Memory.wf t.cfg t.mem = true := by
  obtain ⟨rfl, hb⟩ := State.storeRange_ok h
  have hb' : bs = [] ∨ a + bs.length ≤ memSize := hb.imp List.eq_nil_of_length_eq_zero id
  simpa using State.setBytes_wf s a bs hb' hm

/-- A successful single write is in bounds, writes that byte, and keeps memory canonical. -/
theorem State.memWrite_ok {s t : State} {a : Nat} {b : Byte} (h : s.memWrite a b = .ok t) :
    t = s.setByte a b ∧ a < memSize := by
  unfold State.memWrite at h
  split at h
  · exact ⟨(Except.ok.inj h).symm, ‹_›⟩
  · cases h

/-- Memory reads of the bytes listed by `bytesAt`. -/
theorem State.bytesAt_length (s : State) (a n : Nat) : (s.bytesAt a n).length = n := by simp [State.bytesAt]

theorem State.bytesAt_getElem (s : State) (a n k : Nat) (h : k < (s.bytesAt a n).length) :
    (s.bytesAt a n)[k] = s.byteAt (a + k) := by simp [State.bytesAt]

end Sys2Proof.Machine
end

