-- ==== Sys2Proof/Laws/Ops.lean ====
section
/-! SUPPORT. What each shared operation over registers, the stack, the keys and the fetch can do. -/

namespace Sys2Proof.Machine

/-! ### Raising -/

/-- A checked operation ends in a next state exactly when it succeeded. -/
theorem orRaise_next {α : Type} {r : Except Fault α} {k : α → State} {t : State} :
    orRaise r k = .next t ↔ ∃ a, r = .ok a ∧ k a = t := by
  cases r <;> simp [orRaise, raise]

/-- A checked operation ends in an error exactly when it raised that error. -/
theorem orRaise_fault {α : Type} {r : Except Fault α} {k : α → State} {f : Fault} :
    orRaise r k = .fault f ↔ r = .error f := by
  cases r <;> simp [orRaise, raise]

/-- A checked operation never refuses. -/
theorem orRaise_refused {α : Type} {r : Except Fault α} {k : α → State} {q : Refusal} : orRaise r k ≠ .refused q := by
  cases r <;> simp [orRaise, raise]

/-! ### Registers -/

theorem State.getV_setV (s : State) (x r : Nibble) (b : Byte) : (s.setV x b).getV r = if r = x then b else s.getV r := by
  unfold State.getV
  simp only [State.setV_v, Vector.getElem_set]
  by_cases h : r = x
  · simp [h]
  · have hn : x.toNat ≠ r.toNat := fun e => h (BitVec.eq_of_toNat_eq e.symm)
    simp [h, hn]

@[simp] theorem State.getV_setV_same (s : State) (x : Nibble) (b : Byte) : (s.setV x b).getV x = b := by
  simp [State.getV_setV]

theorem State.getV_setV_other (s : State) {x r : Nibble} (b : Byte) (h : r ≠ x) : (s.setV x b).getV r = s.getV r := by
  simp [State.getV_setV, h]

/-- After a flag-writing instruction VF holds the flag, whatever `x` is (42_arithmetic.md R156). -/
@[simp] theorem State.getV_setVFlag_vf (s : State) (x : Nibble) (r : Byte) (f : Bool) :
    (s.setVFlag x r f).getV vf = flagByte f := by simp [State.setVFlag]

theorem State.getV_setVFlag_result (s : State) {x : Nibble} (r : Byte) (f : Bool) (h : x ≠ vf) :
    (s.setVFlag x r f).getV x = r := by simp [State.setVFlag, State.getV_setV_other _ _ h]

theorem State.getV_setVFlag_other (s : State) {x q : Nibble} (r : Byte) (f : Bool) (h : q ≠ x) (hv : q ≠ vf) :
    (s.setVFlag x r f).getV q = s.getV q := by simp [State.setVFlag, State.getV_setV, h, hv]

theorem State.setBank_eq (s : State) (k : Nat) (bs : List Byte) : ∃ v, s.setBank k bs = { s with v := v } := by
  induction bs generalizing s k with
  | nil => exact ⟨s.v, rfl⟩
  | cons b t ih =>
    obtain ⟨v, hv⟩ := ih { s with v := s.v.setIfInBounds k b } (k + 1)
    exact ⟨v, hv⟩

section
variable (s : State) (k : Nat) (bs : List Byte)

@[simp] theorem State.setBank_cfg : (s.setBank k bs).cfg = s.cfg := by obtain ⟨v, h⟩ := s.setBank_eq k bs; rw [h]
@[simp] theorem State.setBank_mem : (s.setBank k bs).mem = s.mem := by obtain ⟨v, h⟩ := s.setBank_eq k bs; rw [h]
@[simp] theorem State.setBank_idx : (s.setBank k bs).idx = s.idx := by obtain ⟨v, h⟩ := s.setBank_eq k bs; rw [h]
@[simp] theorem State.setBank_pc : (s.setBank k bs).pc = s.pc := by obtain ⟨v, h⟩ := s.setBank_eq k bs; rw [h]
@[simp] theorem State.setBank_stack : (s.setBank k bs).stack = s.stack := by obtain ⟨v, h⟩ := s.setBank_eq k bs; rw [h]
@[simp] theorem State.setBank_dt : (s.setBank k bs).dt = s.dt := by obtain ⟨v, h⟩ := s.setBank_eq k bs; rw [h]
@[simp] theorem State.setBank_st : (s.setBank k bs).st = s.st := by obtain ⟨v, h⟩ := s.setBank_eq k bs; rw [h]
@[simp] theorem State.setBank_disp : (s.setBank k bs).disp = s.disp := by obtain ⟨v, h⟩ := s.setBank_eq k bs; rw [h]
@[simp] theorem State.setBank_keys : (s.setBank k bs).keys = s.keys := by obtain ⟨v, h⟩ := s.setBank_eq k bs; rw [h]
@[simp] theorem State.setBank_wait : (s.setBank k bs).wait = s.wait := by obtain ⟨v, h⟩ := s.setBank_eq k bs; rw [h]
@[simp] theorem State.setBank_waitX : (s.setBank k bs).waitX = s.waitX := by obtain ⟨v, h⟩ := s.setBank_eq k bs; rw [h]
@[simp] theorem State.setBank_draws : (s.setBank k bs).draws = s.draws := by obtain ⟨v, h⟩ := s.setBank_eq k bs; rw [h]
@[simp] theorem State.byteAt_setBank (a : Nat) : (s.setBank k bs).byteAt a = s.byteAt a := by simp [State.byteAt]

end

/-- After loading a bank from register `k` up: the loaded bytes in their registers, the old values elsewhere. -/
theorem State.getV_setBank (s : State) (k : Nat) (bs : List Byte) (r : Nibble) :
    (s.setBank k bs).getV r = if h : k ≤ r.toNat ∧ r.toNat < k + bs.length then bs[r.toNat - k] else s.getV r := by
  induction bs generalizing s k with
  | nil => simp [State.setBank]
  | cons b t ih =>
    have hr : ({ s with v := s.v.setIfInBounds k b } : State).getV r = if k = r.toNat then b else s.getV r := by
      unfold State.getV
      exact Vector.getElem_setIfInBounds r.isLt
    rw [State.setBank, ih, hr]
    by_cases hk : k = r.toNat
    · subst hk
      simp
    · by_cases hi : k + 1 ≤ r.toNat ∧ r.toNat < k + 1 + t.length
      · have hj : k ≤ r.toNat ∧ r.toNat < k + (b :: t).length := by simp only [List.length_cons]; omega
        rw [dif_pos hi, dif_pos hj]
        have e : r.toNat - k = (r.toNat - (k + 1)) + 1 := by omega
        simp only [e, List.getElem_cons_succ]
      · have hj : ¬ (k ≤ r.toNat ∧ r.toNat < k + (b :: t).length) := by simp only [List.length_cons]; omega
        rw [dif_neg hi, dif_neg hj, if_neg hk]

@[simp] theorem State.bank_length (s : State) (x : Nibble) : (s.bank x).length = x.toNat + 1 := by
  have := x.isLt
  simp [State.bank]
  omega

/-- The bank's byte `k` is `V[k]`. -/
theorem State.bank_getElem (s : State) (x r : Nibble) (h : r.toNat < (s.bank x).length) :
    (s.bank x)[r.toNat] = s.getV r := by simp [State.bank, State.getV]

/-! ### The stack -/

/-- A push either adds the entry to a stack with room or reports overflow. -/
theorem State.push_cases (s : State) (w : Word) :
    (s.push w = .ok { s with stack := w :: s.stack } ∧ s.sp < s.cfg.stackDepth) ∨
      (s.push w = .error .stackOverflow ∧ ¬ s.sp < s.cfg.stackDepth) := by
  by_cases h : s.sp < s.cfg.stackDepth
  · exact .inl ⟨by simp only [State.push, if_pos h], h⟩
  · exact .inr ⟨by simp only [State.push, if_neg h], h⟩

/-- A pop either takes the most recent entry or reports underflow on an empty stack. -/
theorem State.pop_cases (s : State) :
    (∃ w t, s.stack = w :: t ∧ s.pop = .ok (w, { s with stack := t })) ∨
      (s.stack = [] ∧ s.pop = .error .stackUnderflow) := by
  cases h : s.stack with
  | nil => exact .inr ⟨rfl, by simp [State.pop, h]⟩
  | cons w t => exact .inl ⟨w, t, rfl, by simp [State.pop, h]⟩

/-! ### The keys -/

theorem mem_keyCodes (k : Nibble) : k ∈ keyCodes := by
  have h : ∀ k : Nibble, k ∈ keyCodes := by decide
  exact h k

/-- No key is picked exactly when none is down. -/
theorem State.keyPick_none (s : State) : s.keyPick = none ↔ ∀ k : Nibble, s.keyPressed k = false := by
  simp only [State.keyPick, List.find?_eq_none]
  exact ⟨fun h k => by simpa using h k (mem_keyCodes k), fun h k _ => by simp [h k]⟩

theorem keyCodes_sorted : keyCodes.Pairwise (· < ·) := by decide

/-- The picked key is down and no lower one is (46_key_wait.md R208). -/
theorem State.keyPick_some (s : State) {k : Nibble} (h : s.keyPick = some k) : s.LowestKey k := by
  obtain ⟨hk, as, bs, e, hl⟩ := List.find?_eq_some_iff_append.mp h
  refine ⟨hk, fun j hj => ?_⟩
  have hs := keyCodes_sorted
  rw [e] at hs
  have hm : j ∈ as ++ k :: bs := e ▸ mem_keyCodes j
  obtain ha | hb := List.mem_append.mp hm
  · simpa using hl j ha
  · have hs' := (List.pairwise_append.mp hs).2.1
    obtain rfl | hb := List.mem_cons.mp hb
    · exact absurd hj (BitVec.lt_irrefl _)
    · have := (List.pairwise_cons.mp hs').1 j hb
      exact absurd (BitVec.lt_trans hj this) (BitVec.lt_irrefl _)

/-- If some key is down, one is picked. -/
theorem State.keyPick_of_lowest (s : State) {k : Nibble} (h : s.LowestKey k) : s.keyPick = some k := by
  cases e : s.keyPick with
  | none => exact absurd h.1 (by simp [(State.keyPick_none s).mp e k])
  | some j =>
    have hj := s.keyPick_some e
    rcases BitVec.lt_trichotomy j k with hlt | rfl | hgt
    · exact absurd hj.1 (by simp [h.2 j hlt])
    · rfl
    · exact absurd h.1 (by simp [hj.2 k hgt])

/-- A poll with the lowest pressed key: the key code in the register and `PC` on. -/
theorem State.pollInto_some (s : State) (x : Nibble) {k : Nibble} (h : s.LowestKey k) :
    s.pollInto x = some (s.setV x (keyByte k)).advance := by simp [State.pollInto, s.keyPick_of_lowest h]

/-- A poll with no key down. -/
theorem State.pollInto_none (s : State) (x : Nibble) (h : ∀ k : Nibble, s.keyPressed k = false) : s.pollInto x = none := by
  simp [State.pollInto, (State.keyPick_none s).mpr h]

/-- Either some key is down, and then a lowest one, or none is. -/
theorem State.lowestKey_or_none (s : State) : (∃ k, s.LowestKey k) ∨ ∀ k : Nibble, s.keyPressed k = false := by
  cases e : s.keyPick with
  | none => exact .inr ((State.keyPick_none s).mp e)
  | some k => exact .inl ⟨k, s.keyPick_some e⟩

/-! ### The fetch -/

/-- The fetch either reads two bytes in memory or reports the lowest address out of bounds (20_memory.md R55). -/
theorem State.fetch_cases (s : State) :
    (s.pc.toNat < 0xFFF ∧ s.fetch = .ok (wordOfBytes (s.byteAt s.pc.toNat) (s.byteAt (s.pc.toNat + 1)))) ∨
      (0xFFF ≤ s.pc.toNat ∧ s.fetch = .error (.memoryAccess (max s.pc.toNat memSize))) := by
  by_cases h : s.pc.toNat ≥ 0xFFF
  · exact .inr ⟨h, by simp only [State.fetch, if_pos h]⟩
  · exact .inl ⟨by omega, by simp only [State.fetch, if_neg h]⟩

/-- A tick that does not start waiting and fetches an instruction executes it. -/
theorem step_of_fetchInstr {s : State} {i : Instr} (hw : s.wait = false) (h : s.fetchInstr = .ok i) : step s = exec i s := by
  simp [step, hw, h]

/-- What a tick can do: wait, report a fetch or decode error, or execute one instruction. -/
theorem step_cases (s : State) :
    (s.wait = true ∧ step s = .next s.waitTick) ∨
      (s.wait = false ∧ ∃ f, s.fetchInstr = .error f ∧ step s = .fault f) ∨
      (s.wait = false ∧ ∃ i, s.fetchInstr = .ok i ∧ step s = exec i s) := by
  cases hw : s.wait with
  | true => exact .inl ⟨rfl, by simp [step, hw]⟩
  | false =>
    cases h : s.fetchInstr with
    | error f => exact .inr (.inl ⟨rfl, f, rfl, by simp [step, hw, h, raise]⟩)
    | ok i => exact .inr (.inr ⟨rfl, i, rfl, step_of_fetchInstr hw h⟩)

/-! ### Sequences and cycles -/

/-- A sequence of operations in two parts. -/
theorem afterOps_append (a b : List HostOp) (s : State) : afterOps (a ++ b) s = afterOps b (afterOps a s) := by
  induction a generalizing s with
  | nil => rfl
  | cons op t ih => exact ih _

/-- An edge with a meaning either holds a free block that nothing is asked of, or proceeds with one operation. -/
theorem Block.edge_cases {c : Cycle} {b b' : Block} {done : Option Completion} (h : b.edge c = some (b', done)) :
    (b.pending = none ∧ c.strobes.requests = [] ∧ b' = b ∧ done = none) ∨
      ∃ op k, Block.proceed op k b.core = (b', done) := by
  unfold Block.edge at h
  split at h
  · exact .inr ⟨_, _, Option.some.inj h⟩
  · split at h
    · next hp hr =>
      simp only [Option.some.injEq, Prod.mk.injEq] at h
      exact .inl ⟨hp, hr, h.1.symm, h.2.symm⟩
    · exact .inr ⟨_, _, Option.some.inj h⟩
    · exact .inr ⟨_, _, Option.some.inj h⟩
    · cases h
    · cases h

/-- An edge has no meaning exactly when, without reset, it holds two requests or a request to a busy block. -/
theorem Block.edge_none {c : Cycle} {b : Block} :
    b.edge c = none ↔ c.strobes.rst = false ∧
      (2 ≤ c.strobes.requests.length ∨ (b.pending ≠ none ∧ c.strobes.requests ≠ [])) := by
  unfold Block.edge
  rcases b with ⟨s, p⟩
  cases hr : c.strobes.rst
  · rcases p with _ | op <;> rcases c.strobes.requests with _ | ⟨q, _ | ⟨q', l⟩⟩ <;> simp
  · simp

end Sys2Proof.Machine
end

