-- ==== Sys2Proof/Laws/Display.lean ====
section
/-! SUPPORT. The XOR-blit, pixel by pixel. -/

namespace Sys2Proof.Machine

/-- A mask's bit over column `c` is the sprite row's pixel `(c - x0) mod 64` (47_draw.md R215, R217 (b)). -/
theorem spriteMask_getMsbD (x0 : Nat) (b : Byte) (c : Nat) (hx : x0 < 64) (hc : c < 64) :
    (spriteMask x0 b).getMsbD c = (decide ((c + 64 - x0) % 64 < 8) && b.getLsbD (7 - (c + 64 - x0) % 64)) := by
  have hm : x0 % 64 = x0 := Nat.mod_eq_of_lt hx
  have key : ∀ i, (if 8 ≤ i then BitVec.getMsbD (0 : BitVec 56) (i - 8) else b.getMsbD i)
      = (decide (i < 8) && b.getLsbD (7 - i)) := by
    intro i
    by_cases h : i < 8
    · have h' : ¬ 8 ≤ i := by omega
      simp [h, h', BitVec.getMsbD]
    · have h' : 8 ≤ i := by omega
      simp [h, h']
  simp only [spriteMask, BitVec.getMsbD_rotateRight, BitVec.getMsbD_append, hm, decide_eq_true hc, Bool.true_and, key]
  by_cases h : c < x0
  · have e : (64 + c - x0) % 64 = (c + 64 - x0) % 64 := by rw [Nat.add_comm]
    simp only [if_pos h, e]
  · have e : c - x0 = (c + 64 - x0) % 64 := by omega
    simp only [if_neg h, e]

/-- A pixel after one row is replaced by its XOR with a mask. -/
theorem Display.pixel_set (d : Display) (r0 : Nat) (h : r0 < 32) (m : BitVec 64) (r c : Nat) :
    Display.pixel (d.set r0 (d[r0] ^^^ m)) r c
      = if r = r0 then (d.pixel r c ^^ m.getMsbD c) else d.pixel r c := by
  unfold Display.pixel
  by_cases hr : r = r0
  · subst hr
    simp [BitVec.getMsbD_xor, h]
  · have hn : r0 ≠ r := Ne.symm hr
    simp [hr, hn]

/-- The sprite bits of the first row and of the rest. -/
theorem spriteBit_cons (b : Byte) (t : List Byte) (x0 r0 r c : Nat) (hx : x0 < 64) (hc : c < 64) :
    spriteBit (b :: t) x0 r0 r c
      = if r = r0 then (spriteMask x0 b).getMsbD c else spriteBit t x0 (r0 + 1) r c := by
  by_cases hr : r = r0
  · subst hr
    simp [spriteBit, spriteMask_getMsbD x0 b c hx hc]
  · by_cases hl : r0 + 1 ≤ r
    · have hl' : r0 ≤ r := by omega
      have e : r - r0 = (r - (r0 + 1)) + 1 := by omega
      simp [spriteBit, hr, hl, hl', e]
    · have hl' : ¬ r0 ≤ r := by omega
      simp [spriteBit, hr, hl, hl']

/-- Every pixel after a blit is the XOR of the pixel before and the sprite's bit over it (47_draw.md R216, R218). -/
theorem blit_pixel (d : Display) (x0 r0 : Nat) (rows : List Byte) (r c : Nat) (hx : x0 < 64) (hr : r < 32) (hc : c < 64) :
    (blit d x0 r0 rows).1.pixel r c = (d.pixel r c ^^ spriteBit rows x0 r0 r c) := by
  induction rows generalizing d r0 with
  | nil => simp [blit, spriteBit]
  | cons b t ih =>
    by_cases h : r0 < 32
    · simp only [blit, dif_pos h]
      rw [ih, Display.pixel_set d r0 h _ r c, spriteBit_cons b t x0 r0 r c hx hc]
      by_cases e : r = r0
      · subst e
        have z : spriteBit t x0 (r + 1) r c = false := by simp [spriteBit]
        simp [z]
      · simp [e]
    · have z : spriteBit (b :: t) x0 r0 r c = false := by
        have hn : ¬ r0 ≤ r := by omega
        simp [spriteBit, hn]
      simp [blit, h, z]

/-- Two masks meet exactly if some column is set in both. -/
theorem mask_meets (a m : BitVec 64) : (a &&& m != 0) = true ↔ ∃ c < 64, a.getMsbD c = true ∧ m.getMsbD c = true := by
  rw [bne_iff_ne]
  constructor
  · intro h
    by_contra hn
    apply h
    apply BitVec.eq_of_getMsbD_eq
    intro c hc
    have hcn : ¬ (a.getMsbD c = true ∧ m.getMsbD c = true) := fun hh => hn ⟨c, hc, hh⟩
    simpa [BitVec.getMsbD_and] using hcn
  · rintro ⟨c, hc, ha, hm⟩ h
    have hb := congrArg (fun w : BitVec 64 => w.getMsbD c) h
    simp [BitVec.getMsbD_and, ha, hm] at hb

/-- The collision flag: some pixel of a drawn row was set under a 1 bit of the sprite (47_draw.md R218). -/
theorem blit_collision (d : Display) (x0 r0 : Nat) (rows : List Byte) (hx : x0 < 64) :
    (blit d x0 r0 rows).2 = true ↔
      ∃ r < 32, ∃ c < 64, d.pixel r c = true ∧ spriteBit rows x0 r0 r c = true := by
  induction rows generalizing d r0 with
  | nil => simp [blit, spriteBit]
  | cons b t ih =>
    by_cases h : r0 < 32
    · simp only [blit, dif_pos h, Bool.or_eq_true, ih, mask_meets]
      have hrow : ∀ c, d.pixel r0 c = (d[r0]).getMsbD c := fun c => by simp [Display.pixel, h]
      constructor
      · rintro (⟨c, hc, ha, hm⟩ | ⟨r, hr, c, hc, hp, hb⟩)
        · exact ⟨r0, h, c, hc, by rw [hrow, ha], by rw [spriteBit_cons b t x0 r0 r0 c hx hc]; simpa using hm⟩
        · have hne : r ≠ r0 := by
            rintro rfl
            simp [spriteBit] at hb
          rw [Display.pixel_set d r0 h _ r c, if_neg hne] at hp
          exact ⟨r, hr, c, hc, hp, by rw [spriteBit_cons b t x0 r0 r c hx hc, if_neg hne]; exact hb⟩
      · rintro ⟨r, hr, c, hc, hp, hb⟩
        rw [spriteBit_cons b t x0 r0 r c hx hc] at hb
        by_cases hne : r = r0
        · subst hne
          exact .inl ⟨c, hc, by rw [← hrow, hp], by simpa using hb⟩
        · rw [if_neg hne] at hb
          exact .inr ⟨r, hr, c, hc, by rw [Display.pixel_set d r0 h _ r c, if_neg hne]; exact hp, hb⟩
    · simp only [blit, dif_neg h, Bool.false_eq_true, false_iff]
      rintro ⟨r, hr, c, hc, hp, hb⟩
      have hn : ¬ r0 ≤ r := by omega
      simp [spriteBit, hn] at hb

/-- Two displays whose pixels agree are equal. -/
theorem Display.ext_pixel (d e : Display) (h : ∀ r < 32, ∀ c < 64, d.pixel r c = e.pixel r c) : d = e := by
  apply Vector.ext
  intro r hr
  apply BitVec.eq_of_getMsbD_eq
  intro c hc
  simpa [Display.pixel, hr] using h r hr c hc

end Sys2Proof.Machine
end

