-- ==== Sys2Proof/Laws/PerInstr.lean ====
section
/-! SUPPORT. Per instruction: its encoding lies in its row of the opcode map (30_encoding.md R86). -/

namespace Sys2Proof

/-! ### The fixed bits of each format (R82) -/

theorem formA_op (op : Nibble) (nnn : Addr12) : formA op nnn &&& 0xF000 = (op ++ (0 : BitVec 12) : BitVec (4 + 12)) := by
  apply BitVec.eq_of_getLsbD_eq
  intro i hi
  simp only [formA, BitVec.getLsbD_and, BitVec.getLsbD_append]
  interval_cases i <;> simp

theorem formXK_op (op x : Nibble) (kk : Byte) : formXK op x kk &&& 0xF000 = (op ++ (0 : BitVec 12) : BitVec (4 + 12)) := by
  apply BitVec.eq_of_getLsbD_eq
  intro i hi
  simp only [formXK, BitVec.getLsbD_and, BitVec.getLsbD_append]
  interval_cases i <;> simp

theorem formXK_low (op x : Nibble) (kk : Byte) :
    formXK op x kk &&& 0xF0FF = ((op ++ (0 : Nibble) : BitVec (4 + 4)) ++ kk : BitVec (4 + 4 + 8)) := by
  apply BitVec.eq_of_getLsbD_eq
  intro i hi
  simp only [formXK, BitVec.getLsbD_and, BitVec.getLsbD_append]
  interval_cases i <;> simp

theorem formXYN_op (op x y n : Nibble) : formXYN op x y n &&& 0xF000 = (op ++ (0 : BitVec 12) : BitVec (4 + 12)) := by
  apply BitVec.eq_of_getLsbD_eq
  intro i hi
  simp only [formXYN, BitVec.getLsbD_and, BitVec.getLsbD_append]
  interval_cases i <;> simp

theorem formXYN_low (op x y n : Nibble) :
    formXYN op x y n &&& 0xF00F = ((op ++ (0 : Byte) : BitVec (4 + 8)) ++ n : BitVec (4 + 8 + 4)) := by
  apply BitVec.eq_of_getLsbD_eq
  intro i hi
  simp only [formXYN, BitVec.getLsbD_and, BitVec.getLsbD_append]
  interval_cases i <;> simp

/-- The word of a well-formed instruction has its row's fixed bits (R86, R96). -/
def Laws.RowBits.Statement (i : Instr) : Prop := ∀ c : Config, i.wellFormed c = true → MatchesRow c i (encode c i)

theorem Laws.RowBits.cls : Laws.RowBits.Statement (.cls) :=
  fun _ _ => by
  simp [MatchesRow, rowOf, encode]
theorem Laws.RowBits.ret : Laws.RowBits.Statement (.ret) :=
  fun _ _ => by
  simp [MatchesRow, rowOf, encode]
theorem Laws.RowBits.jp (nnn : Addr12) : Laws.RowBits.Statement (.jp nnn) :=
  fun _ _ => formA_op 0x1 nnn
theorem Laws.RowBits.call (nnn : Addr12) : Laws.RowBits.Statement (.call nnn) :=
  fun _ _ => formA_op 0x2 nnn
theorem Laws.RowBits.seImm (x : Nibble) (kk : Byte) : Laws.RowBits.Statement (.seImm x kk) :=
  fun _ _ => formXK_op 0x3 x kk
theorem Laws.RowBits.sneImm (x : Nibble) (kk : Byte) : Laws.RowBits.Statement (.sneImm x kk) :=
  fun _ _ => formXK_op 0x4 x kk
theorem Laws.RowBits.seReg (x y : Nibble) : Laws.RowBits.Statement (.seReg x y) :=
  fun _ _ => formXYN_op 0x5 x y 0x0
theorem Laws.RowBits.ldImm (x : Nibble) (kk : Byte) : Laws.RowBits.Statement (.ldImm x kk) :=
  fun _ _ => formXK_op 0x6 x kk
theorem Laws.RowBits.addImm (x : Nibble) (kk : Byte) : Laws.RowBits.Statement (.addImm x kk) :=
  fun _ _ => formXK_op 0x7 x kk
theorem Laws.RowBits.ldReg (x y : Nibble) : Laws.RowBits.Statement (.ldReg x y) :=
  fun _ _ => formXYN_low 0x8 x y 0x0
theorem Laws.RowBits.orReg (x y : Nibble) : Laws.RowBits.Statement (.orReg x y) :=
  fun _ _ => formXYN_low 0x8 x y 0x1
theorem Laws.RowBits.andReg (x y : Nibble) : Laws.RowBits.Statement (.andReg x y) :=
  fun _ _ => formXYN_low 0x8 x y 0x2
theorem Laws.RowBits.xorReg (x y : Nibble) : Laws.RowBits.Statement (.xorReg x y) :=
  fun _ _ => formXYN_low 0x8 x y 0x3
theorem Laws.RowBits.addReg (x y : Nibble) : Laws.RowBits.Statement (.addReg x y) :=
  fun _ _ => formXYN_low 0x8 x y 0x4
theorem Laws.RowBits.subReg (x y : Nibble) : Laws.RowBits.Statement (.subReg x y) :=
  fun _ _ => formXYN_low 0x8 x y 0x5
theorem Laws.RowBits.shr (x : Nibble) : Laws.RowBits.Statement (.shr x) :=
  fun _ _ => formXYN_low 0x8 x 0x0 0x6
theorem Laws.RowBits.subnReg (x y : Nibble) : Laws.RowBits.Statement (.subnReg x y) :=
  fun _ _ => formXYN_low 0x8 x y 0x7
theorem Laws.RowBits.shl (x : Nibble) : Laws.RowBits.Statement (.shl x) :=
  fun _ _ => formXYN_low 0x8 x 0x0 0xE
theorem Laws.RowBits.sneReg (x y : Nibble) : Laws.RowBits.Statement (.sneReg x y) :=
  fun _ _ => formXYN_op 0x9 x y 0x0
theorem Laws.RowBits.ldI (nnn : Addr12) : Laws.RowBits.Statement (.ldI nnn) :=
  fun _ _ => formA_op 0xA nnn
theorem Laws.RowBits.rnd (x : Nibble) (kk : Byte) : Laws.RowBits.Statement (.rnd x kk) :=
  fun _ _ => formXK_op 0xC x kk
theorem Laws.RowBits.drw (x y n : Nibble) : Laws.RowBits.Statement (.drw x y n) :=
  fun _ _ => formXYN_op 0xD x y n
theorem Laws.RowBits.skp (x : Nibble) : Laws.RowBits.Statement (.skp x) :=
  fun _ _ => formXK_low 0xE x 0x9E
theorem Laws.RowBits.sknp (x : Nibble) : Laws.RowBits.Statement (.sknp x) :=
  fun _ _ => formXK_low 0xE x 0xA1
theorem Laws.RowBits.ldVxDt (x : Nibble) : Laws.RowBits.Statement (.ldVxDt x) :=
  fun _ _ => formXK_low 0xF x 0x07
theorem Laws.RowBits.ldVxSt (x : Nibble) : Laws.RowBits.Statement (.ldVxSt x) :=
  fun c _ => by
  rw [MatchesRow, rowOf, encode, formXK_low]
  apply BitVec.eq_of_getLsbD_eq
  intro i hi
  simp only [BitVec.getLsbD_or, BitVec.getLsbD_append, BitVec.getLsbD_setWidth]
  interval_cases i <;> simp
theorem Laws.RowBits.ldVxK (x : Nibble) : Laws.RowBits.Statement (.ldVxK x) :=
  fun _ _ => formXK_low 0xF x 0x0A
theorem Laws.RowBits.ldDtVx (x : Nibble) : Laws.RowBits.Statement (.ldDtVx x) :=
  fun _ _ => formXK_low 0xF x 0x15
theorem Laws.RowBits.ldStVx (x : Nibble) : Laws.RowBits.Statement (.ldStVx x) :=
  fun _ _ => formXK_low 0xF x 0x18
theorem Laws.RowBits.addI (x : Nibble) : Laws.RowBits.Statement (.addI x) :=
  fun _ _ => formXK_low 0xF x 0x1E
theorem Laws.RowBits.ldF (x : Nibble) : Laws.RowBits.Statement (.ldF x) :=
  fun _ _ => formXK_low 0xF x 0x29
theorem Laws.RowBits.ldB (x : Nibble) : Laws.RowBits.Statement (.ldB x) :=
  fun _ _ => formXK_low 0xF x 0x33
theorem Laws.RowBits.storeRegs (x : Nibble) : Laws.RowBits.Statement (.storeRegs x) :=
  fun _ _ => formXK_low 0xF x 0x55
theorem Laws.RowBits.loadRegs (x : Nibble) : Laws.RowBits.Statement (.loadRegs x) :=
  fun _ _ => formXK_low 0xF x 0x65

end Sys2Proof
end

