-- ==== Sys2Proof/Tests/Slice0.lean ====
section
/-! SUPPORT. Tests: ill-formed terms, decoding of words written out from 30_encoding.md R86, vectors of
95_test_vectors.md (named in each comment), and a witness for the hypotheses of every statement that has some. -/

namespace Sys2Proof.Tests

open Sys2Proof.Machine

/-! ### Helpers -/

/-- The next state of an outcome. -/
def nextOf : Host.Outcome State Fault Refusal → Option State
  | .next t => some t
  | .fault _ | .refused _ => none

/-- The error of an outcome. -/
def faultOf : Host.Outcome State Fault Refusal → Option Fault
  | .fault f => some f
  | .next _ | .refused _ => none

/-- The reset state with a word at `PC`. -/
def at200 (w : Nat) : State := State.reset.withFetchWord 16 w

/-- A state with `I`. -/
def withI (s : State) (i : Word) : State := { s with idx := i }

/-- A state with three registers set. -/
def withV (s : State) (a b f : Byte) : State := ((s.setV 0 a).setV 1 b).setV 0xF f

/-- Default parameters without `LD Vx, ST`. -/
def noSt : Config := { Config.default with stReadLow := none }

/-- Default parameters with the font at 0x050. -/
def font50 : Config := { Config.default with fontBase := 0x50 }

/-! ### WellFormed: the one check refuses -/

theorem test_wf_refuses_ldVxSt_without_encoding : Instr.wellFormed noSt (.ldVxSt 3) = false := by decide
theorem test_wf_accepts_ldVxSt_with_encoding : Instr.wellFormed Config.default (.ldVxSt 3) = true := by decide
/-- R7: an inadmissible `ST_READ_LOW`, `STACK_DEPTH` and `FONT_BASE` are refused. -/
theorem test_inadmissible_stReadLow : ¬ ({ Config.default with stReadLow := some 0x0A } : Config).Admissible := by decide
theorem test_inadmissible_stackDepth : ¬ ({ Config.default with stackDepth := 11 } : Config).Admissible := by decide
theorem test_inadmissible_fontBase : ¬ ({ Config.default with fontBase := 0x1B1 } : Config).Admissible := by decide
theorem test_default_admissible : Config.default.Admissible := by decide

/-! ### Decoding: one word per constructor, from the patterns of R86 -/

theorem test_decode_0 : decodeTableWord 16 0x00E0 = some .cls ∧ decodeTableWord 16 0x00EE = some .ret := by decide
theorem test_decode_1 : decodeTableWord 16 0x1ABC = some (.jp 0xABC) := by decide
theorem test_decode_2 : decodeTableWord 16 0x220A = some (.call 0x20A) := by decide
theorem test_decode_3 : decodeTableWord 16 0x3142 = some (.seImm 1 0x42) := by decide
theorem test_decode_4 : decodeTableWord 16 0x4A05 = some (.sneImm 0xA 0x05) := by decide
/-- R89 (a): the low nibble is ignored. -/
theorem test_decode_5 : decodeTableWord 16 0x5237 = some (.seReg 2 3) := by decide
theorem test_decode_6 : decodeTableWord 16 0x6C05 = some (.ldImm 0xC 0x05) := by decide
theorem test_decode_7 : decodeTableWord 16 0x71FF = some (.addImm 1 0xFF) := by decide
theorem test_decode_8_logic : decodeTableWord 16 0x8120 = some (.ldReg 1 2) ∧ decodeTableWord 16 0x8121 = some (.orReg 1 2) ∧
    decodeTableWord 16 0x8122 = some (.andReg 1 2) ∧ decodeTableWord 16 0x8123 = some (.xorReg 1 2) := by decide
/-- R89 (b): SHR and SHL ignore the `y` nibble. -/
theorem test_decode_8_arith : decodeTableWord 16 0x8124 = some (.addReg 1 2) ∧ decodeTableWord 16 0x8125 = some (.subReg 1 2) ∧
    decodeTableWord 16 0x8126 = some (.shr 1) ∧ decodeTableWord 16 0x8127 = some (.subnReg 1 2) ∧
    decodeTableWord 16 0x812E = some (.shl 1) := by decide
theorem test_decode_9 : decodeTableWord 16 0x9AB7 = some (.sneReg 0xA 0xB) := by decide
theorem test_decode_A : decodeTableWord 16 0xA300 = some (.ldI 0x300) := by decide
theorem test_decode_C : decodeTableWord 16 0xC3F0 = some (.rnd 3 0xF0) := by decide
theorem test_decode_D : decodeTableWord 16 0xD125 = some (.drw 1 2 5) := by decide
theorem test_decode_E : decodeTableWord 16 0xE39E = some (.skp 3) ∧ decodeTableWord 16 0xE3A1 = some (.sknp 3) := by decide
theorem test_decode_F_timers : decodeTableWord 16 0xF107 = some (.ldVxDt 1) ∧ decodeTableWord 16 0xF308 = some (.ldVxSt 3) ∧
    decodeTableWord 16 0xF50A = some (.ldVxK 5) ∧ decodeTableWord 16 0xF215 = some (.ldDtVx 2) ∧
    decodeTableWord 16 0xF418 = some (.ldStVx 4) := by decide
theorem test_decode_F_index : decodeTableWord 16 0xF21E = some (.addI 2) ∧ decodeTableWord 16 0xF329 = some (.ldF 3) ∧
    decodeTableWord 16 0xF533 = some (.ldB 5) ∧ decodeTableWord 16 0xF255 = some (.storeRegs 2) ∧
    decodeTableWord 16 0xF265 = some (.loadRegs 2) := by decide
/-- V30.1: words of every unassigned region. -/
theorem test_decode_rejects : decodeTableWord 16 0x0000 = none ∧ decodeTableWord 16 0x0FFF = none ∧ decodeTableWord 16 0x800F = none ∧
    decodeTableWord 16 0xB123 = none ∧ decodeTableWord 16 0xE09F = none ∧ decodeTableWord 16 0xF009 = none := by decide
/-- V45.4: with `ST_READ_LOW` absent F308 is no instruction. -/
theorem test_decode_F308_absent : decodeWord noSt 0xF308 = .error (.unassignedF 0xF308) := by decide
theorem test_decode_truncated : decodeBytes Config.default [0x60] = .error .truncated := by decide

/-! ### One step per instruction: 95_test_vectors.md -/

/-- V41.7, S1: CLS. -/
theorem test_cls : (nextOf (step { at200 0x00E0 with disp := Vector.replicate 32 0xFF })).map (fun t => (t.disp, t.pc))
    = some (Vector.replicate 32 0, 0x202) := by decide
/-- R131's example. -/
theorem test_ret : (nextOf (step { at200 0x00EE with stack := [0x206] })).map (fun t => (t.pc, t.stack)) = some (0x206, []) := by decide
/-- V41.4. -/
theorem test_ret_empty : faultOf (step (at200 0x00EE)) = some .stackUnderflow := by decide
/-- V41.1. -/
theorem test_jp : (nextOf (step (at200 0x1ABC))).map (·.pc) = some 0xABC := by decide
/-- V41.2, tick 1. -/
theorem test_call : (nextOf (step (at200 0x2204))).map (fun t => (t.pc, t.stack)) = some (0x204, [0x202]) := by decide
/-- V41.5, the seventeenth nested call. -/
theorem test_call_full : faultOf (step { at200 0x2200 with stack := List.replicate 16 0x202 }) = some .stackOverflow := by decide
/-- V41.3. -/
theorem test_seImm : (nextOf (step (withV (at200 0x3042) 0x42 0 0))).map (·.pc) = some 0x204 := by decide
theorem test_seImm_not : (nextOf (step (withV (at200 0x3042) 0x41 0 0))).map (·.pc) = some 0x202 := by decide
theorem test_sneImm : (nextOf (step (withV (at200 0x4042) 0x41 0 0))).map (·.pc) = some 0x204 := by decide
theorem test_seReg : (nextOf (step (withV (at200 0x5010) 7 7 0))).map (·.pc) = some 0x204 := by decide
theorem test_seReg_ignores_n : (nextOf (step (at200 0x5011))).map (·.pc) = some 0x204 := by decide
theorem test_sneReg : (nextOf (step (withV (at200 0x9010) 7 8 0))).map (·.pc) = some 0x204 := by decide
theorem test_sneReg_ignores_n : (nextOf (step (at200 0x9AB7))).map (·.pc) = some 0x202 := by decide
/-- V42.0. -/
theorem test_ldImm : (nextOf (step (at200 0x63FF))).map (fun t => t.getV 3) = some 0xFF := by decide
theorem test_addImm_wraps_no_flag : (nextOf (step (withV (at200 0x7101) 0 0xFF 0x55))).map (fun t => (t.getV 1, t.getV 0xF))
    = some (0x00, 0x55) := by decide
theorem test_ldReg : (nextOf (step (withV (at200 0x8010) 0x11 0x22 0x55))).map (fun t => (t.getV 0, t.getV 0xF))
    = some (0x22, 0x55) := by decide
/-- V42.1 to V42.3, row 7F 81. -/
theorem test_orReg : (nextOf (step (withV (at200 0x8011) 0x7F 0x81 0x55))).map (fun t => (t.getV 0, t.getV 0xF))
    = some (0xFF, 0x55) := by decide
theorem test_andReg : (nextOf (step (withV (at200 0x8012) 0x7F 0x81 0x55))).map (fun t => (t.getV 0, t.getV 0xF))
    = some (0x01, 0x55) := by decide
theorem test_xorReg : (nextOf (step (withV (at200 0x8013) 0x7F 0x81 0x55))).map (fun t => (t.getV 0, t.getV 0xF))
    = some (0xFE, 0x55) := by decide
/-- V42.4 to V42.7. -/
theorem test_addReg_carries : (nextOf (step (withV (at200 0x8014) 0x7F 0x81 0x55))).map (fun t => (t.getV 0, t.getV 0xF))
    = some (0x00, 0x01) := by decide
theorem test_subReg_borrows : (nextOf (step (withV (at200 0x8015) 0x03 0x05 0x55))).map (fun t => (t.getV 0, t.getV 0xF))
    = some (0xFE, 0x00) := by decide
theorem test_subReg_equal : (nextOf (step (withV (at200 0x8015) 0x80 0x80 0x55))).map (fun t => (t.getV 0, t.getV 0xF))
    = some (0x00, 0x01) := by decide
theorem test_subnReg : (nextOf (step (withV (at200 0x8017) 0x01 0x00 0x55))).map (fun t => (t.getV 0, t.getV 0xF))
    = some (0xFF, 0x00) := by decide
/-- V42.6, V42.E. -/
theorem test_shr : (nextOf (step (withV (at200 0x8016) 0x05 0xFF 0x55))).map (fun t => (t.getV 0, t.getV 0xF))
    = some (0x02, 0x01) := by decide
theorem test_shl : (nextOf (step (withV (at200 0x801E) 0x7F 0xFF 0x55))).map (fun t => (t.getV 0, t.getV 0xF))
    = some (0xFE, 0x00) := by decide
/-- V42.8: VF as destination holds the flag. -/
theorem test_addReg_into_vf : (nextOf (step (withV (at200 0x8F14) 0 0x20 0xF0))).map (fun t => t.getV 0xF) = some 0x01 := by decide
theorem test_shl_of_vf : (nextOf (step (withV (at200 0x8F1E) 0 0x20 0xF0))).map (fun t => t.getV 0xF) = some 0x01 := by decide
theorem test_subnReg_into_vf : (nextOf (step (withV (at200 0x8F17) 0 0x20 0xF0))).map (fun t => t.getV 0xF) = some 0x00 := by decide
/-- V43.1, V43.2, V43.3. -/
theorem test_ldI : (nextOf (step (at200 0xAFFF))).map (·.idx) = some 0x0FFF := by decide
theorem test_addI_past_memory : (nextOf (step (withV (withI (at200 0xF01E) 0x0FFF) 0xFF 0 0x55))).map (fun t => (t.idx, t.getV 0xF))
    = some (0x10FE, 0x55) := by decide
theorem test_addI_wraps : (nextOf (step (withV (withI (at200 0xF01E) 0xFFFF) 0x02 0 0))).map (·.idx) = some 0x0001 := by decide
theorem test_ldF : (nextOf (step ((at200 0xF329).setV 3 0x1A))).map (·.idx) = some 0x0032 := by decide
theorem test_ldF_font50 : (nextOf (step (((State.fresh font50).withFetchWord 16 0xF329).setV 3 0x1A))).map (·.idx) = some 0x0082 := by decide
/-- V43.4. -/
theorem test_storeRegs_top : (nextOf (step (withV (withI (at200 0xF055) 0xFFF) 0xAA 0 0))).map (fun t => (t.byteAt 0xFFF, t.idx))
    = some (0xAA, 0xFFF) := by decide
/-- V40.5. -/
theorem test_storeRegs_beyond : faultOf (step (withI (at200 0xF155) 0xFFF)) = some (.memoryAccess 0x1000) := by decide
/-- V43.5. -/
theorem test_loadRegs : (nextOf (step ((withI ((at200 0xF265).setBytes 0x300 [1, 2, 3, 4]) 0x300).setV 3 0x99))).map
    (fun t => (t.getV 0, t.getV 1, t.getV 2, t.getV 3, t.idx)) = some (1, 2, 3, 0x99, 0x300) := by decide
/-- V43.6. -/
theorem test_loadRegs_beyond : faultOf (step (withI (at200 0xF065) 0xFFFF)) = some (.memoryAccess 0xFFFF) := by decide
/-- V44.1: with the mask 00 the result is 0 for every draw. -/
theorem test_rnd_mask_zero : (nextOf (step (at200 0xC500))).map (fun t => t.draws) = some 1 := by decide
/-- S3, V44.2. -/
theorem test_skp : (nextOf (step { withV (at200 0xE09E) 0x1A 0 0 with keys := (Vector.replicate 16 false).set 0xA true })).map (·.pc)
    = some 0x204 := by decide
theorem test_skp_not : (nextOf (step (withV (at200 0xE09E) 0x1A 0 0))).map (·.pc) = some 0x202 := by decide
theorem test_sknp : (nextOf (step (withV (at200 0xE0A1) 0x1A 0 0))).map (·.pc) = some 0x204 := by decide
/-- V45.1 to V45.4. -/
theorem test_ldDtVx : (nextOf (step (withV (at200 0xF015) 7 0 0))).map (·.dt) = some 7 := by decide
theorem test_ldVxDt : (nextOf (step { at200 0xF107 with dt := 4 })).map (fun t => (t.getV 1, t.dt)) = some (4, 4) := by decide
theorem test_ldStVx : (nextOf (step ((at200 0xF218).setV 2 1))).map (fun t => (t.st, t.sound)) = some (1, true) := by decide
theorem test_ldVxSt : (nextOf (step { at200 0xF308 with st := 0x1E })).map (fun t => t.getV 3) = some 0x1E := by decide
/-- V46.1 and V46.3: the fetching tick with no key, and a waiting tick with keys 3 and 7. -/
theorem test_ldVxK_waits : (nextOf (step (at200 0xF50A))).map (fun t => (t.wait, t.waitX, t.pc)) = some (true, 5, 0x200) := by decide
theorem test_wait_lowest_key : (nextOf (step { at200 0 with wait := true, waitX := 5, keys := ((Vector.replicate 16 false).set 7 true).set 3 true })).map
    (fun t => (t.getV 5, t.pc, t.wait)) = some (3, 0x202, false) := by decide
/-- V47.3: the start position is reduced, column 63 wraps to 6, row 32 is clipped. -/
theorem test_drw_wraps_and_clips : (nextOf (step (withI (withV ((at200 0xD012).setBytes 0x300 [0x81, 0xFF]) 0xFF 0xFF 0x55) 0x300))).map
    (fun t => (t.disp.toList.filter (· != 0), t.pixel 31 63, t.pixel 31 6, t.getV 0xF)) = some ([0x0200000000000001], true, true, 0) := by decide
/-- V47.2: drawing over a set pixel clears it and sets VF. -/
theorem test_drw_collides : (nextOf (step (withI { (at200 0xD011).setByte 0x300 0xF0 with disp := Vector.replicate 32 0xF000000000000000 } 0x300))).map
    (fun t => (t.pixel 0 0, t.pixel 1 0, t.getV 0xF)) = some (false, true, 1) := by decide
/-- V48.1. -/
theorem test_ldB : (nextOf (step (withI ((at200 0xF533).setV 5 254) 0x400))).map (fun t => t.bytesAt 0x400 3) = some [2, 5, 4] := by decide
/-- V48.2. -/
theorem test_ldB_beyond : faultOf (step (withI (at200 0xF033) 0xFFE)) = some (.memoryAccess 0x1000) := by decide
/-- V40.4. -/
theorem test_tick_after_create : faultOf (step State.reset) = some (.decodeError 0x0000) := by decide
/-- V45.5: a timer at 0 stays. -/
theorem test_decrementTimers : (State.decrementTimers { State.reset with dt := 2 }).dt = 1 ∧
    (State.decrementTimers { State.reset with dt := 2 }).st = 0 := by decide
/-- S4's boundary: 3584 bytes fit. -/
theorem test_load_writes_at_200 : (nextOf (perform (.load [0xAB]) State.reset)).map (fun t => (t.byteAt 0x1FF, t.byteAt 0x200, t.pc))
    = some (0x00, 0xAB, 0x200) := by decide

/-- A block after reset, free or busy with a load of two bytes. -/
def freeBlock : Block := ⟨State.reset, none⟩
def loadingBlock : Block := ⟨State.reset, some (.load [0x12, 0x00])⟩

/-- A cycle with a tick request, one with a tick and a timer request, one with reset too, and one with no request. -/
def tickCycle : Cycle := ⟨⟨false, true, false, none, none⟩, true⟩
def overlapCycle : Cycle := ⟨⟨false, true, true, none, none⟩, true⟩
def resetCycle : Cycle := ⟨⟨true, true, true, none, none⟩, false⟩
def quietCycle (completes : Bool) : Cycle := ⟨⟨false, false, false, none, none⟩, completes⟩

/-- R247: a tick after reset completes with a fault of kind 5 and word 0, and a load keeps the block busy, taking no
tick, until its last byte. -/
theorem test_signals_tick : ((freeBlock.edge tickCycle).map (fun (b, d) =>
    let o := b.outputs d 0x200; (o.done, o.fault, o.faultKind, o.instrWord))) = some (true, true, some 5, some 0) := by decide
theorem test_signals_busy_load : loadingBlock.edge tickCycle = none ∧
    (loadingBlock.edge (quietCycle false)).map (fun (b, d) => (b.pending.isSome, (b.outputs d 0).done)) = some (true, false) ∧
    (loadingBlock.edge (quietCycle true)).map (fun (b, d) => (b.pending.isSome, (b.outputs d 0).done, b.core.byteAt 0x200))
      = some (false, true, 0x12) := by decide
/-- R31, R247: `sound` while the block is busy; a load of `load_len` = 2 bytes begins. -/
theorem test_signals_sound_busy : (Block.outputs ⟨{ State.reset with st := 1 }, some .tick⟩ none 0).sound = true ∧
    (Block.outputs loadingBlock none 0).sound = false := by decide
theorem test_signals_load : Strobes.requests ⟨false, false, false, none, some ⟨2, #v[0x12, 0x00]⟩⟩ = [.load [0x12, 0x00]] := by decide
/-- R296 with D33: a tick and a timer request in one cycle have no meaning; R247: reset has priority. -/
theorem test_signals_overlap : freeBlock.edge overlapCycle = none ∧
    (loadingBlock.edge resetCycle).map (fun (b, d) => (b.pending.isSome, d.map Prod.snd)) = some (false, some .done) := by decide

/-! ### Witnesses: states and operands that meet the hypotheses of the statements, clause by clause -/

/-- A full stack of 16. -/
def full : State := { State.reset with stack := List.replicate 16 0x202 }

/-- A waiting machine at its key wait `LD V5, K`. -/
def waiting : State := { at200 0xF50A with wait := true, waitX := 5 }

/-- The same with keys 3 and 7 down. -/
def waitingKeys : State := { waiting with keys := ((Vector.replicate 16 false).set 7 true).set 3 true }

theorem witness_DecodeOfEncodeIsIdentity : Config.default.Admissible ∧ Instr.wellFormed Config.default (.ldVxSt 0xF) = true := by decide
theorem witness_DecodingFollowsTheUniqueMatchingRow : Config.default.Admissible ∧
    decodeWord Config.default 0x8FFE = .ok (.shl 0xF) ∧ MatchesRow Config.default (.shl 0) 0x8FFE := by decide
theorem witness_UnassignedWords : Unassigned Config.default 0 ∧ Unassigned Config.default 0x800F ∧ Unassigned Config.default 0xB000 ∧
    Unassigned Config.default 0xE09F ∧ Unassigned Config.default 0xF009 := by simp [Unassigned, Config.default]
theorem witness_DecodingDropsOnlyIgnoredBits : Config.default.Admissible ∧ decodeWord Config.default 0x9AB7 = .ok (.sneReg 0xA 0xB) := by decide
theorem witness_StepRunsTheDecodedInstruction :
    let s := { State.reset with pc := 0xFFE }.withFetchWord 16 0x60AA
    s.wait = false ∧ s.pc.toNat < 0xFFF ∧
      decodeBytes s.cfg [s.byteAt s.pc.toNat, s.byteAt (s.pc.toNat + 1)] = .ok (.ldImm 0 0xAA, []) := by decide
theorem witness_Fetch_in_memory : ({ State.reset with pc := 0xFFE } : State).pc.toNat < 0xFFF := by decide
theorem witness_Fetch_beyond : 0xFFF ≤ ({ State.reset with pc := 0xFFF } : State).pc.toNat := by decide
theorem witness_Fetch_same_cells : let s := at200 0x6005; let t := withI (s.setByte 0x300 7) 3
    t.pc = s.pc ∧ t.byteAt s.pc.toNat = s.byteAt s.pc.toNat ∧ t.byteAt (s.pc.toNat + 1) = s.byteAt (s.pc.toNat + 1) ∧ t ≠ s := by decide
theorem witness_Checks_wait : waiting.wait = true := by decide
theorem witness_Checks_fetch : let s := { State.reset with pc := 0x1002 }; s.wait = false ∧ 0xFFF ≤ s.pc.toNat := by decide
theorem witness_Checks_decode : State.reset.wait = false ∧ State.reset.fetch = .ok 0 ∧
    decodeWord State.reset.cfg 0 = .error (.unassigned0 0) := by decide
theorem witness_Checks_exec : (at200 0x6005).wait = false ∧ (at200 0x6005).fetch = .ok 0x6005 ∧
    decodeWord (at200 0x6005).cfg 0x6005 = .ok (.ldImm 0 5) := by decide
/-- Each error of the table occurs in a state that meets the premise. -/
theorem witness_Errors_fetch : let s := { State.reset with pc := 0xFFF }; s.sp ≤ s.cfg.stackDepth ∧
    faultOf (step s) = some (.memoryAccess 0x1000) := by decide
theorem witness_Errors_data : let s := withI (at200 0xFF55) 0xFF1; s.sp ≤ s.cfg.stackDepth ∧
    faultOf (step s) = some (.memoryAccess 0x1000) := by decide
theorem witness_Errors_stack : full.sp ≤ full.cfg.stackDepth ∧ faultOf (step (full.withFetchWord 16 0x2200)) = some .stackOverflow := by decide
theorem witness_Errors_empty : (at200 0x00EE).sp ≤ (at200 0x00EE).cfg.stackDepth ∧ faultOf (step (at200 0x00EE)) = some .stackUnderflow := by decide
theorem witness_Payload_data : faultOf (exec (.storeRegs 1) (withI State.reset 0xFFF)) = some (.memoryAccess 0x1000) := by decide
theorem witness_Payload_decode : faultOf (step (at200 0xB300)) = some (.decodeError 0xB300) := by decide
theorem witness_Total_not_rnd : (at200 0x6005).fetchInstr = .ok (.ldImm 0 5) := by decide
theorem witness_FaultingTick : respond .tick State.reset = (.fault (.decodeError 0), State.reset) := by rfl
theorem witness_Waiting_no_key : waiting.wait = true ∧ ∀ k : Nibble, waiting.keyPressed k = false := by decide
theorem witness_Waiting_key : waitingKeys.wait = true ∧ waitingKeys.LowestKey 3 := by decide
theorem witness_WaitLatched : waiting.wait = true ∧ waiting.WaitLatched := by decide
theorem witness_Pc_next : (nextOf (exec (.jp 0xFFF) State.reset)).isSome = true := by decide
theorem witness_Word_executed : (at200 0x1200).wait = false ∧ (nextOf (step (at200 0x1200))).isSome = true := by decide
theorem witness_Word_fault : faultOf (step (at200 0xF000)) = some (.decodeError 0xF000) := by decide
theorem witness_Ret : ({ State.reset with stack := [0x1000] } : State).stack = 0x1000 :: [] ∧ State.reset.sp = 0 := by decide
theorem witness_Call_room : let s := { State.reset with stack := List.replicate 15 0x202 }; s.sp < s.cfg.stackDepth := by decide
theorem witness_Call_full : full.sp = full.cfg.stackDepth := by decide
theorem witness_Nested : let ts : List Addr12 := List.replicate 16 0x300
    ts ≠ [] ∧ State.reset.sp + ts.length ≤ State.reset.cfg.stackDepth := by decide
theorem witness_Nesting_within : State.reset.sp ≤ State.reset.cfg.stackDepth ∧
    State.reset.sp + (List.replicate 16 (0x300 : Addr12)).length ≤ State.reset.cfg.stackDepth := by decide
theorem witness_Nesting_beyond : State.reset.sp ≤ State.reset.cfg.stackDepth ∧
    State.reset.cfg.stackDepth < State.reset.sp + (List.replicate 17 (0x300 : Addr12)).length := by decide
theorem witness_Vf_writer : (nextOf (exec (.addReg 0 1) State.reset)).isSome = true ∧ writesFlag (.addReg 0 1) = true := by decide
theorem witness_Vf_other : (nextOf (exec (.orReg 0 1) State.reset)).isSome = true ∧ writesFlag (.orReg 0 1) = false ∧
    ¬ namesDest (.orReg 0 1) 0xF := ⟨by decide, by decide, by simp [namesDest]⟩
theorem witness_LdF : ({ Config.default with fontBase := 0x1B0 } : Config).Admissible ∧ State.reset.mem = [] := by decide
theorem witness_Bank_in_memory : (withI State.reset 0xFF0).idx.toNat + (0xF : Nibble).toNat ≤ 4095 := by decide
theorem witness_Bank_beyond : (withI State.reset 0xFF1).idx.toNat + (0xF : Nibble).toNat > 4095 := by decide
theorem witness_StoreThenLoad : ((nextOf (exec (.storeRegs 2) (withI State.reset 0xFFD))).map (fun t => decide (t.idx = 0xFFD)))
    = some true := by decide
theorem witness_Bcd_in_memory : (withI State.reset 0xFFD).idx.toNat + 2 ≤ 4095 := by decide
theorem witness_Bcd_beyond : (withI State.reset 0xFFE).idx.toNat + 2 > 4095 := by decide
theorem witness_StoreIsSeen : 1 ≤ (1 : Nibble).toNat ∧ (withI State.reset 0x202).idx = State.reset.pc + 2 ∧
    (nextOf (exec (.storeRegs 1) (withI State.reset 0x202))).isSome = true := by decide
theorem witness_ByteAccess : State.reset.memRead 4095 = .ok 0 ∧ State.reset.memRead 4096 = .error (.memoryAccess 4096) := by decide
theorem witness_EqualMemories : let s := (State.reset.setByte 1 9).setByte 0xFFF 3; let t := (State.reset.setByte 0xFFF 3).setByte 1 9
    Memory.wf s.cfg s.mem = true ∧ Memory.wf t.cfg t.mem = true ∧ s.mem ≠ [] ∧ s.mem = t.mem := by decide
theorem witness_KeySkips : (0xA : Nibble).toNat = ((withV State.reset 0x1A 0 0).getV 0).toNat % 16 := by decide
theorem witness_KeyWait_key : waitingKeys.LowestKey 3 := by decide
theorem witness_KeyWait_none : ∀ k : Nibble, State.reset.keyPressed k = false := by decide
theorem witness_Draw_in_memory : 0 < (0xF : Nibble).toNat ∧ (withI State.reset 0xFF1).idx.toNat + (0xF : Nibble).toNat - 1 ≤ 4095 := by decide
theorem witness_Draw_beyond : 0 < (0xF : Nibble).toNat ∧ (withI State.reset 0xFF2).idx.toNat + (0xF : Nibble).toNat - 1 > 4095 := by decide
/-- A draw of a font glyph, and the state after it as the state of the second draw. -/
theorem witness_DrawTwice : ((nextOf (exec (.drw 0 1 5) State.reset)).map (fun t =>
    decide (t.idx = State.reset.idx ∧ t.getV 0 = State.reset.getV 0 ∧ t.getV 1 = State.reset.getV 1 ∧
      (∀ k, k < 5 → t.byteAt (State.reset.idx.toNat + k) = State.reset.byteAt (State.reset.idx.toNat + k)) ∧
      t.pixel 0 0 = true))) = some true := by decide
theorem witness_Inv_waiting : waiting.Inv := by
  refine ⟨by decide, by decide, ?_, by decide, by decide⟩
  have h : waiting.stack = [] := by rfl
  rw [h]; simp
theorem witness_Inv_full : full.Inv := by
  refine ⟨by decide, by decide, ?_, by decide, by decide⟩
  intro w hw; rw [List.eq_of_mem_replicate (show w ∈ List.replicate 16 (0x202 : Word) from hw)]; decide
theorem witness_Step_from_Inv : (nextOf (step (full.withFetchWord 16 0x00EE))).isSome = true := by decide
theorem witness_Step_from_latched : (nextOf (step waiting)).isSome = true := by decide
theorem witness_Finished : (at200 0x1200).FinishedAt 0x200 := ⟨by decide, by decide, by decide⟩
theorem witness_Load_fits (b : Byte) : (List.replicate 3584 b).length ≤ 3584 := by rw [List.length_replicate]
theorem witness_Load_too_long (b : Byte) : (List.replicate 3585 b).length > 3584 := by rw [List.length_replicate]; decide
theorem witness_SetKey : (0xF : Nibble).toNat = 15 ∧ faultOf (perform (.setKey 16 true) State.reset) = some (.invalidKeyCode 16) := by decide
theorem witness_Decrement_sound : ({ State.reset with st := 1 } : State).st = 1 := by decide
theorem witness_TimersRise : let s := withV (at200 0xF015) 7 0 0; s.dt.toNat < (respond .tick s).2.dt.toNat := by decide
theorem witness_SoundRises : let s := withV (at200 0xF018) 7 0 0; s.st.toNat < (respond .tick s).2.st.toNat := by decide
theorem witness_Accessors : State.reset.readMem 4095 = .ok 0 ∧ State.reset.readMem 4096 = .error (.memoryAccess 4096) := by decide
theorem witness_Cycles_run : (afterCycles [quietCycle false, quietCycle true, tickCycle] loadingBlock).map
    (fun (b, ds) => (b.core.pc, ds.map Prod.snd)) = some (0x200, [.done, .executed 0x1200]) := by decide
theorem witness_Cycles_no_meaning : (afterCycles [quietCycle false] loadingBlock).map (fun (b, _) => b.edge tickCycle)
    = some none := by decide
theorem witness_Signals_reset : resetCycle.strobes.rst = true := by decide
theorem witness_Signals_request : tickCycle.strobes.rst = false ∧ freeBlock.pending = none ∧
    tickCycle.strobes.requests = [.tick] ∧ tickCycle.completes = true := by decide
theorem witness_Signals_busy : (quietCycle false).strobes.rst = false ∧ loadingBlock.pending = some (.load [0x12, 0x00]) ∧
    (quietCycle false).strobes.requests = [] ∧ (quietCycle false).completes = false := by decide
theorem witness_Signals_load : (⟨false, false, false, none, some ⟨2, #v[0x12, 0x00]⟩⟩ : Strobes).loadReq = some ⟨2, #v[0x12, 0x00]⟩ := by rfl
theorem witness_Signals_quiet : (quietCycle true).strobes.rst = false ∧ freeBlock.pending = none ∧
    (quietCycle true).strobes.requests = [] := by decide
/-- A waiting tick over the word of `LD DT, Vx`, as a load may leave it: it gives a next state, and `DT` stays. -/
theorem witness_Writers_waiting : (nextOf (step ({ waitingKeys with dt := 9 }.setBytes 0x200 [0xF5, 0x15]))).map
    (fun t => (t.dt, t.getV 5, t.pc, t.wait)) = some (9, 3, 0x202, false) := by decide
theorem witness_Writers_latching : (nextOf (step (at200 0xF50A))).isSome = true := by decide

end Sys2Proof.Tests
end

section
/-! PROOFS. Single byte accesses (20_memory.md R52, R53): what each answers on either side of the bound, and the frame
of a change of memory. -/

namespace Sys2Proof.Machine

/-- In bounds, a read answers the cell (R52). -/
theorem State.memRead_of_lt (s : State) {a : Nat} (h : a < memSize) : s.memRead a = .ok (s.byteAt a) := if_pos h

/-- Out of bounds, a read reports its address (R52). -/
theorem State.memRead_of_ge (s : State) {a : Nat} (h : memSize ≤ a) : s.memRead a = .error (.memoryAccess a) :=
  if_neg (Nat.not_lt.mpr h)

/-- In bounds, a write sets the cell (R53). -/
theorem State.memWrite_of_lt (s : State) {a : Nat} (b : Byte) (h : a < memSize) :
    s.memWrite a b = .ok (s.setByte a b) := if_pos h

/-- Out of bounds, a write reports its address (R53). -/
theorem State.memWrite_of_ge (s : State) {a : Nat} (b : Byte) (h : memSize ≤ a) :
    s.memWrite a b = .error (.memoryAccess a) := if_neg (Nat.not_lt.mpr h)

/-- Replacing the memory leaves every other piece of state as it was. -/
theorem State.unchangedBut_with_mem (s : State) (m : Memory) : UnchangedBut [.mem] s { s with mem := m } := by
  intro p hp
  cases p
  case mem => exact absurd (List.mem_singleton_self _) hp
  case v => exact fun _ => rfl
  all_goals rfl

/-- A byte write changes no piece of state but memory (R53). -/
theorem State.setByte_unchangedBut (s : State) (a : Nat) (b : Byte) : UnchangedBut [.mem] s (s.setByte a b) :=
  s.unchangedBut_with_mem _

/-- Settles O37: both accesses are cases on the bound, and in bounds the write is `setByte`, whose reads and frame are
known. -/
theorem byteAccessesAreBoundsChecked : Obligations.ByteAccessesAreBoundsChecked := by
  unfold Obligations.ByteAccessesAreBoundsChecked
  intro s a b
  constructor
  · intro hout
    have hge : memSize ≤ a := hout
    exact ⟨s.memRead_of_ge hge, s.memWrite_of_ge b hge⟩
  · intro hin
    have hlt : a < memSize := Nat.lt_succ_of_le hin
    exact ⟨s.memRead_of_lt hlt, s.setByte a b, s.memWrite_of_lt b hlt, s.byteAt_setByte_same a b,
      fun k hk => s.byteAt_setByte_other a k b hk, s.setByte_unchangedBut a b⟩

end Sys2Proof.Machine
end

section
/-! PROOFS. The order of checks in a tick (40_instruction_cycle.md R120): what the fetch and the decode answer, and the
tick in each case. -/

namespace Sys2Proof.Machine

variable {s : State}

/-- A fetch out of bounds ends fetch and decode with its error. -/
theorem State.fetchInstr_of_fetch_error {f : Fault} (h : s.fetch = .error f) : s.fetchInstr = .error f := by
  simp only [State.fetchInstr, h]

/-- A fetched word that decodes gives its instruction. -/
theorem State.fetchInstr_of_decode_ok {w : Word} {i : Instr} (hf : s.fetch = .ok w) (hd : decodeWord s.cfg w = .ok i) :
    s.fetchInstr = .ok i := by
  simp only [State.fetchInstr, State.decoded, hf, hd]

/-- A fetched word that does not decode gives DecodeError with the word. -/
theorem State.fetchInstr_of_decode_error {w : Word} {e : DecodeReject} (hf : s.fetch = .ok w)
    (hd : decodeWord s.cfg w = .error e) : s.fetchInstr = .error (.decodeError w) := by
  simp only [State.fetchInstr, State.decoded, hf, hd]

/-- An instruction was fetched only from a fetched word. -/
theorem State.fetch_of_fetchInstr_ok {i : Instr} (h : s.fetchInstr = .ok i) : ∃ w, s.fetch = .ok w := by
  cases hf : s.fetch with
  | ok w => exact ⟨w, rfl⟩
  | error f => rw [State.fetchInstr_of_fetch_error hf] at h; cases h

/-- A tick that starts waiting is one poll (R111). -/
theorem step_of_wait (hw : s.wait = true) : step s = .next s.waitTick := if_pos hw

/-- A tick that fails to fetch or decode reports that error. -/
theorem step_of_fetchInstr_error {f : Fault} (hw : s.wait = false) (h : s.fetchInstr = .error f) : step s = .fault f := by
  simp [step, hw, h, raise]

/-- Settles O8: one clause per check, each a case of the tick. -/
theorem tickChecksInOrder : Obligations.TickChecksInOrder := by
  unfold Obligations.TickChecksInOrder
  intro s
  refine ⟨fun hw => ⟨_, step_of_wait hw⟩, fun hw hpc => ?_, fun hw w hf ⟨e, he⟩ => ?_, fun hw w hf i hi => ?_⟩
  · obtain ⟨hlt, -⟩ | ⟨-, hf⟩ := s.fetch_cases
    · omega
    · exact ⟨_, step_of_fetchInstr_error hw (State.fetchInstr_of_fetch_error hf)⟩
  · exact ⟨w, step_of_fetchInstr_error hw (State.fetchInstr_of_decode_error hf he)⟩
  · exact step_of_fetchInstr hw (State.fetchInstr_of_decode_ok hf hi)

end Sys2Proof.Machine
end

section
/-! PROOFS. A tick is total (40_instruction_cycle.md R118): no instruction is refused. -/

namespace Sys2Proof.Machine

/-- A checked operation goes on or raises its error. -/
theorem orRaise_next_or_fault {α : Type} (r : Except Fault α) (κ : α → State) :
    (∃ t, orRaise r κ = .next t) ∨ ∃ f, orRaise r κ = .fault f := by
  cases r with
  | ok a => exact .inl ⟨κ a, rfl⟩
  | error f => exact .inr ⟨f, rfl⟩

/-- The key wait completes or latches, in every state (R205). -/
theorem execLdVxK_next (x : Nibble) (s : State) : ∃ t, execLdVxK x s = .next t := by
  unfold execLdVxK
  cases s.pollInto x with
  | some t => exact ⟨t, rfl⟩
  | none => exact ⟨_, rfl⟩

/-- Every instruction gives a next state or an error: the checked ones either, all others a next state. -/
theorem exec_next_or_fault (i : Instr) (s : State) : (∃ t, exec i s = .next t) ∨ ∃ f, exec i s = .fault f := by
  cases i
  case ret | call | drw | ldB | storeRegs | loadRegs => exact orRaise_next_or_fault _ _
  case ldVxK x => exact .inl (execLdVxK_next x s)
  all_goals exact .inl ⟨_, rfl⟩

/-- Every tick gives a next state or an error. -/
theorem step_next_or_fault (s : State) : (∃ t, step s = .next t) ∨ ∃ f, step s = .fault f := by
  obtain ⟨-, h⟩ | ⟨-, f, -, h⟩ | ⟨-, i, -, h⟩ := step_cases s
  · exact .inl ⟨_, h⟩
  · exact .inr ⟨f, h⟩
  · rw [h]
    exact exec_next_or_fault i s

end Sys2Proof.Machine
end

section
/-! PROOFS. Which part of a tick depends on the draw counter (40_instruction_cycle.md R118): each shared operation
commutes with a change of the counter, so every instruction but `RND` does. -/

namespace Sys2Proof.Machine

/-- The state with another draw counter. -/
def State.withDraws (k : Nat) (s : State) : State := { s with draws := k }

variable (s : State) (k : Nat)

/-! ### The shared operations -/

theorem State.setBytes_withDraws (a : Nat) (bs : List Byte) :
    (s.withDraws k).setBytes a bs = (s.setBytes a bs).withDraws k := by
  induction bs generalizing s a with
  | nil => rfl
  | cons b t ih => exact ih (s.setByte a b) (a + 1)

theorem State.setBank_withDraws (r : Nat) (bs : List Byte) :
    (s.withDraws k).setBank r bs = (s.setBank r bs).withDraws k := by
  induction bs generalizing s r with
  | nil => rfl
  | cons b t ih => exact ih { s with v := s.v.setIfInBounds r b } (r + 1)

theorem State.storeRange_withDraws (a : Nat) (bs : List Byte) :
    (s.withDraws k).storeRange a bs = (s.storeRange a bs).map (State.withDraws k) := by
  unfold State.storeRange
  cases rangeFault a bs.length with
  | some f => rfl
  | none => exact congrArg Except.ok (s.setBytes_withDraws k a bs)

theorem State.loadRange_withDraws (a n : Nat) : (s.withDraws k).loadRange a n = (s.loadRange a n).map id := by
  unfold State.loadRange
  cases rangeFault a n <;> rfl

theorem State.push_withDraws (w : Word) : (s.withDraws k).push w = (s.push w).map (State.withDraws k) := by
  obtain ⟨h, hroom⟩ | ⟨h, hfull⟩ := s.push_cases w
  · rw [h]
    exact if_pos hroom
  · rw [h]
    exact if_neg hfull

theorem State.pop_withDraws : (s.withDraws k).pop = s.pop.map (Prod.map id (State.withDraws k)) := by
  cases hs : s.stack <;> simp [State.pop, State.withDraws, hs, Except.map]

theorem State.pollInto_withDraws (x : Nibble) :
    (s.withDraws k).pollInto x = (s.pollInto x).map (State.withDraws k) :=
  (Option.map_map (State.withDraws k) (fun key => (s.setV x (keyByte key)).advance) s.keyPick).symm

theorem State.waitTick_withDraws : (s.withDraws k).waitTick = s.waitTick.withDraws k := by
  unfold State.waitTick
  rw [show (s.withDraws k).pollInto (s.withDraws k).waitX = _ from s.pollInto_withDraws k s.waitX]
  cases s.pollInto s.waitX <;> rfl

/-! ### Instructions and ticks -/

/-- Two checked operations correspond if their checks give corresponding results and they go on alike. -/
theorem orRaise_eq_mapNext {α β : Type} {r : Except Fault α} {r' : Except Fault β} {κ : α → State} {κ' : β → State}
    {g : State → State} (h : α → β) (hr : r' = r.map h) (hκ : ∀ a, κ' (h a) = g (κ a)) :
    orRaise r' κ' = mapNext g (orRaise r κ) := by
  subst hr
  cases r with
  | ok a => exact congrArg Host.Outcome.next (hκ a)
  | error f => rfl

theorem execLdVxK_withDraws (x : Nibble) :
    execLdVxK x (s.withDraws k) = mapNext (State.withDraws k) (execLdVxK x s) := by
  unfold execLdVxK
  rw [s.pollInto_withDraws k x]
  cases s.pollInto x <;> rfl

/-- Every instruction but `RND` does the same whatever the draw counter is, and keeps it. -/
theorem exec_withDraws (i : Instr) (hi : ∀ x kk, i ≠ .rnd x kk) :
    exec i (s.withDraws k) = mapNext (State.withDraws k) (exec i s) := by
  cases i
  case rnd x kk => exact absurd rfl (hi x kk)
  case ret => exact orRaise_eq_mapNext _ (s.pop_withDraws k) fun _ => rfl
  case call nnn => exact orRaise_eq_mapNext _ (s.push_withDraws k _) fun _ => rfl
  case ldB | storeRegs => exact orRaise_eq_mapNext _ (s.storeRange_withDraws k _ _) fun _ => rfl
  case drw => exact orRaise_eq_mapNext id (s.loadRange_withDraws k _ _) fun _ => rfl
  case loadRegs =>
    exact orRaise_eq_mapNext id (s.loadRange_withDraws k _ _) fun bs => congrArg State.advance (s.setBank_withDraws k 0 bs)
  case ldVxK x => exact execLdVxK_withDraws s k x
  all_goals rfl

/-- A tick that waits or does not fetch `RND` does the same whatever the draw counter is, and keeps it (R118). -/
theorem step_withDraws (hs : s.wait = true ∨ ∀ x kk, s.fetchInstr ≠ .ok (.rnd x kk)) :
    step (s.withDraws k) = mapNext (State.withDraws k) (step s) := by
  have hwait : (s.withDraws k).wait = s.wait := rfl
  have hfetch : (s.withDraws k).fetchInstr = s.fetchInstr := rfl
  obtain ⟨hw, h⟩ | ⟨hw, f, hf, h⟩ | ⟨hw, i, hi, h⟩ := step_cases s
  · rw [h, step_of_wait (hwait.trans hw), s.waitTick_withDraws k]
    rfl
  · rw [h, step_of_fetchInstr_error (hwait.trans hw) (hfetch.trans hf)]
    rfl
  · have hnot : ∀ x kk, i ≠ .rnd x kk := by
      rintro x kk rfl
      exact hs.elim (fun hw' => by simp [hw] at hw') (fun hne => hne x kk hi)
    rw [h, step_of_fetchInstr (hwait.trans hw) (hfetch.trans hi)]
    exact exec_withDraws s k i hnot

/-- Settles O11: no arm of `exec` refuses, and each but that of `RND` commutes with a change of the draw counter. -/
theorem tickIsTotalAndRandomOnlyForRnd : Obligations.TickIsTotalAndRandomOnlyForRnd := by
  unfold Obligations.TickIsTotalAndRandomOnlyForRnd
  exact ⟨step_next_or_fault, fun s k hs => step_withDraws s k hs⟩

end Sys2Proof.Machine
end

section
/-! PROOFS. A tick that reports an error (40_instruction_cycle.md R119): it is a faulting step, it leaves the state as
it was, and no error depends on the random byte. -/

namespace Sys2Proof.Machine

variable {s t : State} {f : Fault}

/-- A faulting operation answers its error and keeps the state (60_exceptions.md R268). -/
theorem respond_of_fault {op : HostOp} (h : perform op s = .fault f) : respond op s = (.fault f, s) := by
  simp only [respond, h]

/-- An operation that completes answers its completion and the next state. -/
theorem respond_of_next {op : HostOp} (h : perform op s = .next t) : respond op s = (completion op s, t) := by
  simp only [respond, h]

/-- A tick that completes reports no error: it waited, or it executed a fetched word (R116). -/
theorem completion_tick_ne_fault (h : step s = .next t) : completion .tick s ≠ .fault f := by
  obtain ⟨hw, -⟩ | ⟨-, g, -, hfault⟩ | ⟨hw, i, hi, -⟩ := step_cases s
  · simp [completion, hw]
  · rw [hfault] at h
    cases h
  · obtain ⟨w, hfetch⟩ := State.fetch_of_fetchInstr_ok hi
    simp [completion, hw, hfetch]

/-- A tick reports an error exactly when its step faults, and then the state is the one before (R119). -/
theorem respond_tick_fault_iff : respond .tick s = (.fault f, t) ↔ step s = .fault f ∧ t = s := by
  constructor
  · intro h
    obtain ⟨u, hu⟩ | ⟨g, hg⟩ := step_next_or_fault s
    · rw [respond_of_next (op := .tick) hu] at h
      exact absurd (congrArg Prod.fst h) (completion_tick_ne_fault hu)
    · rw [respond_of_fault (op := .tick) hg] at h
      obtain ⟨rfl, rfl⟩ : g = f ∧ s = t := by simpa using h
      exact ⟨hg, rfl⟩
  · rintro ⟨h, rfl⟩
    exact respond_of_fault h

/-- An error of a tick is the same for every draw of the random byte: the one instruction that draws never faults. -/
theorem step_withDraws_of_fault (k : Nat) (h : step s = .fault f) : step (s.withDraws k) = .fault f := by
  have hnotRnd : s.wait = true ∨ ∀ x kk, s.fetchInstr ≠ .ok (.rnd x kk) := by
    by_contra hcon
    push Not at hcon
    obtain ⟨hw, x, kk, hi⟩ := hcon
    have hnext : step s = execRnd x kk s := step_of_fetchInstr (Bool.eq_false_iff.mpr hw) hi
    rw [hnext] at h
    cases h
  rw [step_withDraws s k hnotRnd, h]
  rfl

/-- Settles O12: the reported error is that of a faulting step, which keeps the state and does not look at the draw
counter. -/
theorem faultingTickChangesNothingAndRepeats : Obligations.FaultingTickChangesNothingAndRepeats := by
  unfold Obligations.FaultingTickChangesNothingAndRepeats
  intro s t f h
  obtain ⟨hstep, rfl⟩ := respond_tick_fault_iff.mp h
  exact ⟨rfl, h, fun k => congrArg Prod.fst (respond_of_fault (op := .tick) (step_withDraws_of_fault k hstep))⟩

end Sys2Proof.Machine
end

section
/-! PROOFS. `load(bytes)` (49_host_operations.md R238): the length check, and what the copied image reads as. -/

namespace Sys2Proof.Machine

variable (s : State)

/-- An image of more than PROG_MAX bytes is refused. -/
theorem hostLoad_of_gt {bytes : List Byte} (h : progMax < bytes.length) :
    hostLoad bytes s = .fault (.loadError bytes.length) := if_pos h

/-- Any other image is written from PROG_BASE up. -/
theorem hostLoad_of_le {bytes : List Byte} (h : bytes.length ≤ progMax) :
    hostLoad bytes s = .next (s.setBytes progBase bytes) := if_neg (Nat.not_lt.mpr h)

/-- A written range reads back byte by byte. -/
theorem State.getElem?_eq_byteAt_setBytes (a : Nat) {bs : List Byte} {k : Nat} (h : k < bs.length) :
    bs[k]? = some ((s.setBytes a bs).byteAt (a + k)) := by
  simp [State.byteAt_setBytes, h]

/-- Writing a range leaves every byte outside it. -/
theorem State.setBytes_memUnchangedOutside (a : Nat) (bs : List Byte) :
    MemUnchangedOutside a bs.length s (s.setBytes a bs) := by
  intro k hk
  rw [State.byteAt_setBytes, dif_neg hk]

/-- Writing a range changes no piece of state but memory. -/
theorem State.setBytes_unchangedBut (a : Nat) (bs : List Byte) : UnchangedBut [.mem] s (s.setBytes a bs) := by
  obtain ⟨m, hm⟩ := s.setBytes_eq a bs
  rw [hm]
  exact s.unchangedBut_with_mem m

/-- Settles O54: a too long image raises the error, which keeps the state; any other is one range write from 0x200. -/
theorem loadCopiesTheImage : Obligations.LoadCopiesTheImage := by
  unfold Obligations.LoadCopiesTheImage
  intro bytes s
  constructor
  · intro hlong
    have hfault := respond_of_fault (op := .load bytes) (hostLoad_of_gt s hlong)
    exact ⟨⟨bytes.length, congrArg Prod.fst hfault⟩, congrArg Prod.snd hfault⟩
  · intro hfits
    exact ⟨s.setBytes progBase bytes, respond_of_next (op := .load bytes) (hostLoad_of_le s hfits),
      fun k hk => s.getElem?_eq_byteAt_setBytes progBase hk, s.setBytes_memUnchangedOutside progBase bytes,
      s.setBytes_unchangedBut progBase bytes⟩

end Sys2Proof.Machine
end

section
/-! PROOFS. `set_key(code, pressed)` (49_host_operations.md R243): the code check, and the latch after a write of one
of its bits. -/

namespace Sys2Proof.Machine

/-- `KEY[k] <- pressed`: what `set_key` does for a code that names a key (`hostSetKey_of_nibble`). -/
def State.setKey (s : State) (k : Nibble) (pressed : Bool) : State := { s with keys := s.keys.set k.toNat pressed k.isLt }

variable (s : State)

/-- The code of a key writes that key's bit. -/
theorem hostSetKey_of_nibble (k : Nibble) (pressed : Bool) :
    hostSetKey k.toNat pressed s = .next (s.setKey k pressed) := dif_pos k.isLt

/-- A code above 15 is refused. -/
theorem hostSetKey_of_gt {code : Nat} (pressed : Bool) (h : 0xF < code) :
    hostSetKey code pressed s = .fault (.invalidKeyCode code) := dif_neg (Nat.not_lt.mpr h)

@[simp] theorem State.keyPressed_setKey_same (k : Nibble) (pressed : Bool) :
    (s.setKey k pressed).keyPressed k = pressed := Vector.getElem_set_self k.isLt

theorem State.keyPressed_setKey_other {j k : Nibble} (pressed : Bool) (h : j ≠ k) :
    (s.setKey k pressed).keyPressed j = s.keyPressed j :=
  Vector.getElem_set_ne k.isLt j.isLt fun e => h (BitVec.eq_of_toNat_eq e.symm)

/-- Writing to a key's bit the value it has changes nothing. -/
theorem State.setKey_keyPressed (k : Nibble) : s.setKey k (s.keyPressed k) = s :=
  congrArg (fun keys => { s with keys := keys }) (Vector.set_getElem_self k.isLt)

/-- Writing a key's bit changes no piece of state but the key latch. -/
theorem State.setKey_unchangedBut (k : Nibble) (pressed : Bool) : UnchangedBut [.keys] s (s.setKey k pressed) := by
  intro p hp
  cases p
  case keys => exact absurd (List.mem_singleton_self _) hp
  case v | mem => exact fun _ => rfl
  all_goals rfl

/-- Settles O56: a code above 15 raises the error, which keeps the state; any other is one write of the latch. -/
theorem setKeyWritesOneLatchBit : Obligations.SetKeyWritesOneLatchBit := by
  unfold Obligations.SetKeyWritesOneLatchBit
  intro code pressed s
  constructor
  · intro hbad
    exact respond_of_fault (op := .setKey code pressed) (hostSetKey_of_gt s pressed hbad)
  · rintro k rfl
    refine ⟨s.setKey k pressed, respond_of_next (op := .setKey k.toNat pressed) (hostSetKey_of_nibble s k pressed),
      s.keyPressed_setKey_same k pressed, fun j hj => s.keyPressed_setKey_other pressed hj,
      s.setKey_unchangedBut k pressed, ?_⟩
    rintro rfl
    exact s.setKey_keyPressed k

end Sys2Proof.Machine
end

section
/-! PROOFS. `decrement_timers()` (49_host_operations.md R241): one timer's count, and the frame. -/

namespace Sys2Proof.Machine

/-- A timer counts down by one and stops at 0: subtraction of naturals. -/
theorem countDown_toNat (b : Byte) : (countDown b).toNat = b.toNat - 1 := by
  unfold countDown
  by_cases h : b = 0
  · rw [if_pos h, h]
    rfl
  · rw [if_neg h]
    bv_omega

/-- Counting the timers down changes no other piece of state. -/
theorem State.decrementTimers_unchangedBut (s : State) : UnchangedBut [.dt, .st] s s.decrementTimers := by
  intro p hp
  cases p
  case dt | st => simp at hp
  case v | mem => exact fun _ => rfl
  all_goals rfl

/-- Counting down from `ST = 1` takes the sound output from on to off (10_state.md R31). -/
theorem State.sound_falls_of_st_one {s : State} (h : s.st = 1) : s.sound = true ∧ s.decrementTimers.sound = false := by
  simp [State.sound, h, countDown]

/-- Settles O55: the operation never fails, and each timer is counted down by `countDown`. -/
theorem decrementTimersStopsAtZero : Obligations.DecrementTimersStopsAtZero := by
  unfold Obligations.DecrementTimersStopsAtZero
  intro s
  exact ⟨s.decrementTimers, respond_of_next (op := .decrementTimers) rfl, countDown_toNat s.dt, countDown_toNat s.st,
    State.sound_falls_of_st_one, s.decrementTimers_unchangedBut⟩

end Sys2Proof.Machine
end

section
/-! PROOFS. Which words the decoder rejects (30_encoding.md R87): the fields of a word as numbers, the error of each
second-level decode, and the five regions. -/

namespace Sys2Proof.Machine

variable {c : Config} {w : Word}

/-! ### The fields of a word as numbers (R81) -/

theorem opField_toNat (w : Word) : (opField w).toNat = w.toNat / 4096 := by
  have hshift : w.toNat >>> 12 = w.toNat / 4096 := Nat.shiftRight_eq_div_pow _ _
  simp only [opField, BitVec.extractLsb'_toNat, hshift]
  omega

theorem kkField_toNat (w : Word) : (kkField w).toNat = w.toNat % 256 := by
  simp [kkField]

theorem nField_toNat (w : Word) : (nField w).toNat = w.toNat % 16 := by
  simp [nField]

/-! ### The families with a second-level key (R84) -/

theorem decode0_error_iff : (∃ e, decode0 w = .error e) ↔ w.toNat ≠ 0x00E0 ∧ w.toNat ≠ 0x00EE := by
  simp only [decode0, BitVec.toNat_eq]
  split_ifs <;> simp_all

theorem decode8_error_iff :
    (∃ e, decode8 w = .error e) ↔ w.toNat % 16 ∈ [0x8, 0x9, 0xA, 0xB, 0xC, 0xD, 0xF] := by
  rw [← nField_toNat]
  simp only [decode8]
  generalize nField w = n
  obtain ⟨n, hn⟩ := n
  interval_cases n <;> simp

theorem decodeE_error_iff : (∃ e, decodeE w = .error e) ↔ w.toNat % 256 ≠ 0x9E ∧ w.toNat % 256 ≠ 0xA1 := by
  simp only [decodeE, BitVec.toNat_eq, kkField_toNat]
  split_ifs <;> simp_all

theorem decodeF_error_iff :
    (∃ e, decodeF c w = .error e) ↔
      w.toNat % 256 ∉ [0x07, 0x0A, 0x15, 0x18, 0x1E, 0x29, 0x33, 0x55, 0x65] ∧
        c.stReadLow.map BitVec.toNat ≠ some (w.toNat % 256) := by
  have hkey : c.stReadLow = some (kkField w) ↔ c.stReadLow.map BitVec.toNat = some (w.toNat % 256) := by
    cases c.stReadLow <;> simp [← kkField_toNat, BitVec.toNat_eq]
  simp only [decodeF, hkey, BitVec.toNat_eq, kkField_toNat]
  split_ifs <;> simp_all

/-! ### All words -/

/-- Only the families 0, 8, B, E and F hold rejected words. -/
theorem decodeWord_error_iff_family :
    (∃ e, decodeWord c w = .error e) ↔
      (w.toNat / 4096 = 0x0 ∧ ∃ e, decode0 w = .error e) ∨ (w.toNat / 4096 = 0x8 ∧ ∃ e, decode8 w = .error e) ∨
        w.toNat / 4096 = 0xB ∨ (w.toNat / 4096 = 0xE ∧ ∃ e, decodeE w = .error e) ∨
        (w.toNat / 4096 = 0xF ∧ ∃ e, decodeF c w = .error e) := by
  rw [← opField_toNat]
  simp only [decodeWord]
  generalize opField w = op
  obtain ⟨op, hop⟩ := op
  interval_cases op <;> simp

/-- The decoder rejects exactly the unassigned words (R87). -/
theorem decodeWord_error_iff : (∃ e, decodeWord c w = .error e) ↔ Unassigned c w.toNat := by
  rw [decodeWord_error_iff_family, decode0_error_iff, decode8_error_iff, decodeE_error_iff, decodeF_error_iff, Unassigned]

end Sys2Proof.Machine
end

section
/-! PROOFS. The errors of a tick (60_exceptions.md R261): which errors a fetch with its decode and which each
instruction can raise, and so which a tick can report. -/

namespace Sys2Proof.Machine

variable {s : State} {f : Fault}

/-! ### Fetch and decode -/

/-- The fetch fails exactly with a `PC` whose second byte is beyond memory (20_memory.md R55). -/
theorem State.fetch_error_iff :
    s.fetch = .error f ↔ 0xFFF ≤ s.pc.toNat ∧ f = .memoryAccess (max s.pc.toNat memSize) := by
  obtain ⟨hpc, h⟩ | ⟨hpc, h⟩ := s.fetch_cases
  · simp [h, hpc]
  · simp [h, hpc, eq_comm]

/-- The decode of a fetched word fails exactly on an unassigned word, with the word (30_encoding.md R87). -/
theorem State.decoded_error_iff {w : Word} : s.decoded w = .error f ↔ Unassigned s.cfg w.toNat ∧ f = .decodeError w := by
  rw [← decodeWord_error_iff, State.decoded]
  cases decodeWord s.cfg w <;> simp [eq_comm]

/-- Fetch and decode fail with the fetch or on an unassigned word. -/
theorem State.fetchInstr_error_iff :
    s.fetchInstr = .error f ↔
      (0xFFF ≤ s.pc.toNat ∧ f = .memoryAccess (max s.pc.toNat memSize)) ∨
        ∃ w, s.fetch = .ok w ∧ Unassigned s.cfg w.toNat ∧ f = .decodeError w := by
  rw [← State.fetch_error_iff, State.fetchInstr]
  cases s.fetch <;> simp [State.decoded_error_iff]

/-! ### The checked operations -/

/-- A range read fails exactly if the range is not empty and ends beyond memory (20_memory.md R60). -/
theorem State.loadRange_error_iff {a n : Nat} :
    s.loadRange a n = .error f ↔ (0 < n ∧ memSize < a + n) ∧ f = .memoryAccess (max a memSize) := by
  obtain ⟨h, hin⟩ | ⟨h, hout⟩ := s.loadRange_cases a n
  · simp only [h, reduceCtorEq, false_iff]
    omega
  · simp only [h, Except.error.injEq, eq_comm (a := f), iff_and_self]
    omega

/-- A range write fails exactly as a range read of as many bytes. -/
theorem State.storeRange_error_iff {a : Nat} {bs : List Byte} :
    s.storeRange a bs = .error f ↔ (0 < bs.length ∧ memSize < a + bs.length) ∧ f = .memoryAccess (max a memSize) := by
  rw [← State.loadRange_error_iff (s := s), State.loadRange, State.storeRange]
  cases rangeFault a bs.length <;> simp

/-- A push fails exactly on a full stack (10_state.md R28). -/
theorem State.push_error_iff {w : Word} : s.push w = .error f ↔ s.cfg.stackDepth ≤ s.sp ∧ f = .stackOverflow := by
  obtain ⟨h, hroom⟩ | ⟨h, hfull⟩ := s.push_cases w
  · simp [h, hroom]
  · simp [h, Nat.le_of_not_lt hfull, eq_comm]

/-- A pop fails exactly on an empty stack (10_state.md R28). -/
theorem State.pop_error_iff : s.pop = .error f ↔ s.sp = 0 ∧ f = .stackUnderflow := by
  obtain ⟨w, t, hs, h⟩ | ⟨hs, h⟩ := s.pop_cases
  · simp [h, State.sp, hs]
  · simp [h, State.sp, hs, eq_comm]

/-! ### The ranges of the four memory instructions (R261), in the form in which an access is checked -/

@[simp] theorem dataOutOfBounds_drw {x y n : Nibble} :
    dataOutOfBounds (.drw x y n) s ↔ 0 < n.toNat ∧ memSize < s.ea 0 + n.toNat := by
  simp only [dataOutOfBounds, State.ea, memSize]
  omega

@[simp] theorem dataOutOfBounds_ldB {x : Nibble} : dataOutOfBounds (.ldB x) s ↔ memSize < s.ea 0 + 3 := by
  simp only [dataOutOfBounds, State.ea, memSize]
  omega

@[simp] theorem dataOutOfBounds_storeRegs {x : Nibble} :
    dataOutOfBounds (.storeRegs x) s ↔ memSize < s.ea 0 + (x.toNat + 1) := by
  simp only [dataOutOfBounds, State.ea, memSize]
  omega

@[simp] theorem dataOutOfBounds_loadRegs {x : Nibble} :
    dataOutOfBounds (.loadRegs x) s ↔ memSize < s.ea 0 + (x.toNat + 1) := dataOutOfBounds_storeRegs

/-! ### Instructions and ticks -/

/-- The errors of the instructions: one of the four memory instructions on a range out of bounds, `CALL` on a full
stack, `RET` on an empty one. -/
theorem exec_fault_iff {i : Instr} :
    exec i s = .fault f ↔
      (dataOutOfBounds i s ∧ f = .memoryAccess (max (s.ea 0) memSize)) ∨
        ((∃ nnn, i = .call nnn) ∧ s.cfg.stackDepth ≤ s.sp ∧ f = .stackOverflow) ∨
        (i = .ret ∧ s.sp = 0 ∧ f = .stackUnderflow) := by
  cases i
  case ret => simp [exec, execRet, orRaise_fault, State.pop_error_iff, dataOutOfBounds]
  case call => simp [exec, execCall, orRaise_fault, State.push_error_iff, dataOutOfBounds]
  case drw => simp [exec, execDrw, orRaise_fault, State.loadRange_error_iff]
  case ldB => simp [exec, execLdB, orRaise_fault, State.storeRange_error_iff, digits]
  case storeRegs => simp [exec, execStoreRegs, orRaise_fault, State.storeRange_error_iff]
  case loadRegs => simp [exec, execLoadRegs, orRaise_fault, State.loadRange_error_iff]
  case ldVxK x =>
    obtain ⟨t, h⟩ := execLdVxK_next x s
    simp [exec, h, dataOutOfBounds]
  all_goals
    -- the other instructions check nothing and go on to a next state
    change Host.Outcome.next _ = Host.Outcome.fault f ↔ _
    simp [dataOutOfBounds]

/-- A tick reports the error of its fetch and decode, or that of the instruction it executes. -/
theorem step_fault_iff :
    step s = .fault f ↔
      s.wait = false ∧ (s.fetchInstr = .error f ∨ ∃ i, s.fetchInstr = .ok i ∧ exec i s = .fault f) := by
  obtain ⟨hw, h⟩ | ⟨hw, g, hg, h⟩ | ⟨hw, i, hi, h⟩ := step_cases s
  · simp [h, hw]
  · simp [h, hw, hg]
  · simp [h, hw, hi]

theorem step_memoryAccess_iff {a : Nat} :
    step s = .fault (.memoryAccess a) ↔
      s.wait = false ∧ ((0xFFF ≤ s.pc.toNat ∧ a = max s.pc.toNat memSize) ∨
        ∃ i, s.fetchInstr = .ok i ∧ dataOutOfBounds i s ∧ a = max (s.ea 0) memSize) := by
  simp [step_fault_iff, State.fetchInstr_error_iff, exec_fault_iff]

theorem step_decodeError_iff {w : Word} :
    step s = .fault (.decodeError w) ↔ s.wait = false ∧ s.fetch = .ok w ∧ Unassigned s.cfg w.toNat := by
  simp [step_fault_iff, State.fetchInstr_error_iff, exec_fault_iff]

theorem step_stackOverflow_iff :
    step s = .fault .stackOverflow ↔
      s.wait = false ∧ ∃ nnn, s.fetchInstr = .ok (.call nnn) ∧ s.cfg.stackDepth ≤ s.sp := by
  simp [step_fault_iff, State.fetchInstr_error_iff, exec_fault_iff]

theorem step_stackUnderflow_iff :
    step s = .fault .stackUnderflow ↔ s.wait = false ∧ s.fetchInstr = .ok .ret ∧ s.sp = 0 := by
  simp [step_fault_iff, State.fetchInstr_error_iff, exec_fault_iff]

theorem step_ne_loadError (n : Nat) : step s ≠ .fault (.loadError n) := by
  simp [step_fault_iff, State.fetchInstr_error_iff, exec_fault_iff]

theorem step_ne_invalidKeyCode (k : Nat) : step s ≠ .fault (.invalidKeyCode k) := by
  simp [step_fault_iff, State.fetchInstr_error_iff, exec_fault_iff]

/-- Settles O9: one clause per error, each a lemma about the tick; the bound on `SP` makes a stack that is at least
full exactly full. -/
theorem tickErrorsExactlyAsTabled : Obligations.TickErrorsExactlyAsTabled := by
  unfold Obligations.TickErrorsExactlyAsTabled
  intro s hsp
  have hfull : s.cfg.stackDepth ≤ s.sp ↔ s.sp = s.cfg.stackDepth := ⟨hsp.antisymm, fun h => h.ge⟩
  refine ⟨?memory, ?decode, ?overflow, step_stackUnderflow_iff, step_ne_loadError, step_ne_invalidKeyCode⟩
  case memory =>
    constructor
    · rintro ⟨a, h⟩
      obtain ⟨hw, ⟨hpc, -⟩ | ⟨i, hi, hout, -⟩⟩ := step_memoryAccess_iff.mp h
      · exact ⟨hw, .inl hpc⟩
      · exact ⟨hw, .inr ⟨i, hi, hout⟩⟩
    · rintro ⟨hw, hpc | ⟨i, hi, hout⟩⟩
      · exact ⟨_, step_memoryAccess_iff.mpr ⟨hw, .inl ⟨hpc, rfl⟩⟩⟩
      · exact ⟨_, step_memoryAccess_iff.mpr ⟨hw, .inr ⟨i, hi, hout, rfl⟩⟩⟩
  case decode => simp only [step_decodeError_iff, exists_and_left]
  case overflow => simp only [step_stackOverflow_iff, hfull]

end Sys2Proof.Machine
end

section
/-! PROOFS. The encoder against the decoder (30_encoding.md): the fields of each format (R81, R82), a word put together
again from its fields, and from these the round trips of R84, R86 and R89. -/

namespace Sys2Proof

/-! ### The fields of each format (R82) -/

section
variable (op x y n : Nibble) (kk : Byte) (nnn : Addr12)

@[simp] theorem opField_formA : opField (formA op nnn) = op := BitVec.extractLsb'_append_eq_left

@[simp] theorem nnnField_formA : nnnField (formA op nnn) = nnn := BitVec.extractLsb'_append_eq_right

@[simp] theorem opField_formXK : opField (formXK op x kk) = op :=
  (BitVec.extractLsb'_append_eq_of_le (by decide)).trans BitVec.extractLsb'_append_eq_left

@[simp] theorem xField_formXK : xField (formXK op x kk) = x :=
  (BitVec.extractLsb'_append_eq_of_le (by decide)).trans BitVec.extractLsb'_append_eq_right

@[simp] theorem kkField_formXK : kkField (formXK op x kk) = kk := BitVec.extractLsb'_append_eq_right

/-! A word with the fields `y` and `n` is by definition one with the immediate byte `y ++ n`. -/

@[simp] theorem opField_formXYN : opField (formXYN op x y n) = op := opField_formXK op x (y ++ n)

@[simp] theorem xField_formXYN : xField (formXYN op x y n) = x := xField_formXK op x (y ++ n)

@[simp] theorem yField_formXYN : yField (formXYN op x y n) = y :=
  (BitVec.extractLsb'_append_eq_of_add_le (by decide)).trans BitVec.extractLsb'_append_eq_left

@[simp] theorem nField_formXYN : nField (formXYN op x y n) = n :=
  (BitVec.extractLsb'_append_eq_of_add_le (by decide)).trans BitVec.extractLsb'_append_eq_right

end

/-! ### A word from its fields -/

section
variable {w : Word} {op n : Nibble} {kk : Byte}

theorem formA_fields (hop : opField w = op) : formA op (nnnField w) = w := by
  subst hop
  exact (BitVec.extractLsb'_append_extractLsb'_eq_extractLsb' rfl).trans BitVec.extractLsb'_eq_self

theorem formXK_fields (hop : opField w = op) (hkk : kkField w = kk) : formXK op (xField w) kk = w := by
  subst hop hkk
  have hhigh : opField w ++ xField w = w.extractLsb' 8 8 := BitVec.extractLsb'_append_extractLsb'_eq_extractLsb' rfl
  rw [formXK, hhigh]
  exact (BitVec.extractLsb'_append_extractLsb'_eq_extractLsb' rfl).trans BitVec.extractLsb'_eq_self

theorem formXYN_fields (hop : opField w = op) (hn : nField w = n) : formXYN op (xField w) (yField w) n = w := by
  subst hn
  have hlow : yField w ++ nField w = kkField w := BitVec.extractLsb'_append_extractLsb'_eq_extractLsb' rfl
  exact formXK_fields hop hlow.symm

/-- The bytes of a word, high byte first, make up the word (20_memory.md R54). -/
theorem wordOfBytes_extract (w : Word) : wordOfBytes (w.extractLsb' 8 8) (w.extractLsb' 0 8) = w :=
  (BitVec.extractLsb'_append_extractLsb'_eq_extractLsb' rfl).trans BitVec.extractLsb'_eq_self

theorem decodeBytes_bytesOfWord (c : Config) (rest : List Byte) {i : Instr} (h : decodeWord c w = .ok i) :
    decodeBytes c (bytesOfWord w ++ rest) = .ok (i, rest) := by
  simp [decodeBytes, bytesOfWord, wordOfBytes_extract, h]

end

/-! ### Decoding an encoded instruction (R84, R86) -/

/-- With `ST_READ_LOW` no other key of family F, its word decodes to `LD Vx, ST` (R95). -/
theorem decodeWord_ldVxSt {c : Config} (hc : c.Admissible) {b : Byte} (hb : c.stReadLow = some b) (x : Nibble) :
    decodeWord c (formXK 0xF x b) = .ok (.ldVxSt x) := by
  obtain ⟨-, -, hkey⟩ := hc
  simp only [hb, Option.all_some, Bool.not_eq_true', List.contains_eq_mem, decide_eq_false_iff_not, Config.usedLow,
    List.mem_cons, List.not_mem_nil, or_false, not_or, BitVec.ofNat_eq_ofNat] at hkey
  simp [decodeWord, decodeF, hb, hkey]

/-- The word of a well-formed instruction decodes to it. -/
theorem decodeWord_encode {c : Config} (hc : c.Admissible) {i : Instr} (hi : i.wellFormed c = true) :
    decodeWord c (encode c i) = .ok i := by
  cases i
  case ldVxSt x =>
    obtain ⟨b, hb⟩ := Option.isSome_iff_exists.mp hi
    simpa [encode, hb] using decodeWord_ldVxSt hc hb x
  case cls | ret => simp [encode, decodeWord, decode0, opField]
  all_goals simp [encode, decodeWord, decode8, decodeE, decodeF]

/-- Settles O1: the word decodes to the instruction, and its two bytes are that word. -/
theorem decodeOfEncodeIsIdentity : Obligations.DecodeOfEncodeIsIdentity := by
  unfold Obligations.DecodeOfEncodeIsIdentity
  intro c i rest hc hi
  exact decodeBytes_bytesOfWord c rest (decodeWord_encode hc hi)

/-! ### Encoding a decoded word (R89) -/

/-- Clearing bits of a word clears them field by field. -/
theorem formXYN_and (op x y n op' x' y' n' : Nibble) :
    formXYN op x y n &&& formXYN op' x' y' n' = formXYN (op &&& op') (x &&& x') (y &&& y') (n &&& n') :=
  BitVec.and_append.trans (congrArg₂ (fun hi lo : Byte => wordOfBytes hi lo) BitVec.and_append BitVec.and_append)

/-- Without ignored bits the word stays; here as the three formats. -/
theorem clear_none_formA (w : Word) : w &&& ~~~0 = formA (opField w) (nnnField w) :=
  BitVec.and_allOnes.trans (formA_fields rfl).symm

theorem clear_none_formXK (w : Word) : w &&& ~~~0 = formXK (opField w) (xField w) (kkField w) :=
  BitVec.and_allOnes.trans (formXK_fields rfl rfl).symm

theorem clear_none_formXYN (w : Word) : w &&& ~~~0 = formXYN (opField w) (xField w) (yField w) (nField w) :=
  BitVec.and_allOnes.trans (formXYN_fields rfl rfl).symm

theorem Nibble.and_ones (x : Nibble) : x &&& 0xF = x := BitVec.and_allOnes

theorem Nibble.and_zero (x : Nibble) : x &&& 0 = 0 := BitVec.and_zero

/-- The ignored bits of families 5 and 9 are the field `n` (R89 (a)). -/
theorem clear_nBits (w : Word) : w &&& ~~~0x000F = formXYN (opField w) (xField w) (yField w) 0 := by
  have hmask : (~~~0x000F : Word) = formXYN 0xF 0xF 0xF 0 := rfl
  conv_lhs => rw [← formXYN_fields (w := w) rfl rfl, hmask, formXYN_and]
  simp only [Nibble.and_ones, Nibble.and_zero]

/-- The ignored bits of the shifts are the field `y` (R89 (b)). -/
theorem clear_yBits (w : Word) : w &&& ~~~0x00F0 = formXYN (opField w) (xField w) 0 (nField w) := by
  have hmask : (~~~0x00F0 : Word) = formXYN 0xF 0xF 0 0xF := rfl
  conv_lhs => rw [← formXYN_fields (w := w) rfl rfl, hmask, formXYN_and]
  simp only [Nibble.and_ones, Nibble.and_zero]

/-- What decoding a word to an instruction establishes: the instruction exists on the machine, and its encoding is the
word with the ignored bits cleared (R89). -/
def ReadsAs (c : Config) (w : Word) (i : Instr) : Prop := i.wellFormed c = true ∧ encode c i = w &&& ~~~ignoredBits i

section
variable {c : Config} {w : Word} {i : Instr}

theorem readsAs_of_decode0 (h : decode0 w = .ok i) : ReadsAs c w i := by
  simp only [decode0] at h
  split_ifs at h with hcls hret <;> cases h
  · subst hcls
    exact ⟨rfl, rfl⟩
  · subst hret
    exact ⟨rfl, rfl⟩

theorem readsAs_of_decode8 (hop : opField w = 0x8) (h : decode8 w = .ok i) : ReadsAs c w i := by
  simp only [decode8] at h
  split_ifs at h <;> cases h <;> refine ⟨rfl, ?_⟩ <;>
    simp only [encode, ignoredBits, clear_none_formXYN, clear_yBits, *]

theorem readsAs_of_decodeE (hop : opField w = 0xE) (h : decodeE w = .ok i) : ReadsAs c w i := by
  simp only [decodeE] at h
  split_ifs at h <;> cases h <;> refine ⟨rfl, ?_⟩ <;> simp only [encode, ignoredBits, clear_none_formXK, *]

theorem readsAs_of_decodeF (hop : opField w = 0xF) (h : decodeF c w = .ok i) : ReadsAs c w i := by
  simp only [decodeF] at h
  split_ifs at h <;> cases h <;>
    simp only [ReadsAs, Instr.wellFormed, encode, ignoredBits, clear_none_formXK, Option.isSome_some, Option.getD_some,
      and_self, *]

/-- The families of words that hold instructions (R84): what a word of each decodes to. -/
theorem decodeWord_ok_cases (h : decodeWord c w = .ok i) :
    (opField w = 0x0 ∧ decode0 w = .ok i) ∨ (opField w = 0x1 ∧ i = .jp (nnnField w)) ∨
      (opField w = 0x2 ∧ i = .call (nnnField w)) ∨ (opField w = 0x3 ∧ i = .seImm (xField w) (kkField w)) ∨
      (opField w = 0x4 ∧ i = .sneImm (xField w) (kkField w)) ∨ (opField w = 0x5 ∧ i = .seReg (xField w) (yField w)) ∨
      (opField w = 0x6 ∧ i = .ldImm (xField w) (kkField w)) ∨ (opField w = 0x7 ∧ i = .addImm (xField w) (kkField w)) ∨
      (opField w = 0x8 ∧ decode8 w = .ok i) ∨ (opField w = 0x9 ∧ i = .sneReg (xField w) (yField w)) ∨
      (opField w = 0xA ∧ i = .ldI (nnnField w)) ∨ (opField w = 0xC ∧ i = .rnd (xField w) (kkField w)) ∨
      (opField w = 0xD ∧ i = .drw (xField w) (yField w) (nField w)) ∨ (opField w = 0xE ∧ decodeE w = .ok i) ∨
      (opField w = 0xF ∧ decodeF c w = .ok i) := by
  rw [decodeWord] at h
  generalize opField w = op at h ⊢
  obtain ⟨op, hlt⟩ := op
  interval_cases op <;> simp_all [eq_comm]

/-- A decoded word reads as its instruction. -/
theorem readsAs_of_decodeWord (h : decodeWord c w = .ok i) : ReadsAs c w i := by
  obtain ⟨-, h⟩ | ⟨hop, rfl⟩ | ⟨hop, rfl⟩ | ⟨hop, rfl⟩ | ⟨hop, rfl⟩ | ⟨hop, rfl⟩ | ⟨hop, rfl⟩ | ⟨hop, rfl⟩ | ⟨hop, h⟩ |
    ⟨hop, rfl⟩ | ⟨hop, rfl⟩ | ⟨hop, rfl⟩ | ⟨hop, rfl⟩ | ⟨hop, h⟩ | ⟨hop, h⟩ := decodeWord_ok_cases h
  · exact readsAs_of_decode0 h
  · exact ⟨rfl, by simp only [encode, ignoredBits, clear_none_formA, hop]⟩
  · exact ⟨rfl, by simp only [encode, ignoredBits, clear_none_formA, hop]⟩
  · exact ⟨rfl, by simp only [encode, ignoredBits, clear_none_formXK, hop]⟩
  · exact ⟨rfl, by simp only [encode, ignoredBits, clear_none_formXK, hop]⟩
  · exact ⟨rfl, by simp only [encode, ignoredBits, clear_nBits, hop]⟩
  · exact ⟨rfl, by simp only [encode, ignoredBits, clear_none_formXK, hop]⟩
  · exact ⟨rfl, by simp only [encode, ignoredBits, clear_none_formXK, hop]⟩
  · exact readsAs_of_decode8 hop h
  · exact ⟨rfl, by simp only [encode, ignoredBits, clear_nBits, hop]⟩
  · exact ⟨rfl, by simp only [encode, ignoredBits, clear_none_formA, hop]⟩
  · exact ⟨rfl, by simp only [encode, ignoredBits, clear_none_formXK, hop]⟩
  · exact ⟨rfl, by simp only [encode, ignoredBits, clear_none_formXYN, hop]⟩
  · exact readsAs_of_decodeE hop h
  · exact readsAs_of_decodeF hop h

/-- Settles O4: that is the second half of what decoding a word establishes. -/
theorem decodingDropsOnlyIgnoredBits : Obligations.DecodingDropsOnlyIgnoredBits := by
  unfold Obligations.DecodingDropsOnlyIgnoredBits
  intro c w i _ h
  obtain ⟨-, henc⟩ := readsAs_of_decodeWord h
  exact henc

/-- Settles O3: the rejected words are counted out family by family in `decodeWord_error_iff`. -/
theorem unassignedWordsAreExactlyTheListedRegions : Obligations.UnassignedWordsAreExactlyTheListedRegions := by
  unfold Obligations.UnassignedWordsAreExactlyTheListedRegions
  exact fun c w => Machine.decodeWord_error_iff

/-! ### The rows of the opcode map (R86, R96) -/

/-- The word of a well-formed instruction has its row's fixed bits: the law of each row, for all rows. -/
theorem encode_matchesRow : ∀ i : Instr, Laws.RowBits.Statement i
  | .cls => Laws.RowBits.cls
  | .ret => Laws.RowBits.ret
  | .jp nnn => Laws.RowBits.jp nnn
  | .call nnn => Laws.RowBits.call nnn
  | .seImm x kk => Laws.RowBits.seImm x kk
  | .sneImm x kk => Laws.RowBits.sneImm x kk
  | .seReg x y => Laws.RowBits.seReg x y
  | .ldImm x kk => Laws.RowBits.ldImm x kk
  | .addImm x kk => Laws.RowBits.addImm x kk
  | .ldReg x y => Laws.RowBits.ldReg x y
  | .orReg x y => Laws.RowBits.orReg x y
  | .andReg x y => Laws.RowBits.andReg x y
  | .xorReg x y => Laws.RowBits.xorReg x y
  | .addReg x y => Laws.RowBits.addReg x y
  | .subReg x y => Laws.RowBits.subReg x y
  | .shr x => Laws.RowBits.shr x
  | .subnReg x y => Laws.RowBits.subnReg x y
  | .shl x => Laws.RowBits.shl x
  | .sneReg x y => Laws.RowBits.sneReg x y
  | .ldI nnn => Laws.RowBits.ldI nnn
  | .rnd x kk => Laws.RowBits.rnd x kk
  | .drw x y n => Laws.RowBits.drw x y n
  | .skp x => Laws.RowBits.skp x
  | .sknp x => Laws.RowBits.sknp x
  | .ldVxDt x => Laws.RowBits.ldVxDt x
  | .ldVxSt x => Laws.RowBits.ldVxSt x
  | .ldVxK x => Laws.RowBits.ldVxK x
  | .ldDtVx x => Laws.RowBits.ldDtVx x
  | .ldStVx x => Laws.RowBits.ldStVx x
  | .addI x => Laws.RowBits.addI x
  | .ldF x => Laws.RowBits.ldF x
  | .ldB x => Laws.RowBits.ldB x
  | .storeRegs x => Laws.RowBits.storeRegs x
  | .loadRegs x => Laws.RowBits.loadRegs x

/-- No row looks at an ignored bit. -/
theorem ignoredBits_and_mask : ~~~ignoredBits i &&& (rowOf c i).2 = (rowOf c i).2 := by
  cases i <;> simp only [ignoredBits, rowOf] <;> decide

/-- Every row looks at the whole family nibble. -/
theorem opField_mask : opField (rowOf c i).2 = 0xF := by
  cases i <;> simp only [rowOf] <;> decide

/-- A decoded word has the fixed bits of its instruction's row: its encoding has, and no row looks at an ignored bit. -/
theorem matchesRow_of_readsAs (h : ReadsAs c w i) : MatchesRow c i w := by
  obtain ⟨hwf, henc⟩ := h
  have hrow := encode_matchesRow i c hwf
  rwa [MatchesRow, henc, BitVec.and_assoc, ignoredBits_and_mask] at hrow

/-- Two words that agree under a mask agree in a field that the mask keeps. -/
theorem opField_eq_of_mask {v m : Word} (hm : opField m = 0xF) (h : w &&& m = v &&& m) : opField w = opField v := by
  have hfield : opField w &&& opField m = opField v &&& opField m := by
    simpa only [opField, BitVec.extractLsb'_and] using congrArg opField h
  rwa [hm, Nibble.and_ones, Nibble.and_ones] at hfield

theorem nField_eq_of_mask {v m : Word} (hm : nField m = 0xF) (h : w &&& m = v &&& m) : nField w = nField v := by
  have hfield : nField w &&& nField m = nField v &&& nField m := by
    simpa only [nField, BitVec.extractLsb'_and] using congrArg nField h
  rwa [hm, Nibble.and_ones, Nibble.and_ones] at hfield

theorem kkField_eq_of_mask {v m : Word} (hm : kkField m = 0xFF) (h : w &&& m = v &&& m) : kkField w = kkField v := by
  have hfield : kkField w &&& kkField m = kkField v &&& kkField m := by
    simpa only [kkField, BitVec.extractLsb'_and] using congrArg kkField h
  have hones : ∀ b : Byte, b &&& 0xFF = b := fun _ => BitVec.and_allOnes
  rwa [hm, hones, hones] at hfield

/-- A word with the fixed bits of a row agrees with the encodings of that row in every field the decoder keys on, so it
decodes to an instruction of the row. -/
theorem decodeWord_of_matchesRow (hc : c.Admissible) (hi : i.wellFormed c = true) (h : MatchesRow c i w) :
    ∃ j, decodeWord c w = .ok j ∧ rowOf c j = rowOf c i := by
  have hsame : w &&& (rowOf c i).2 = encode c i &&& (rowOf c i).2 := h.trans (encode_matchesRow i c hi).symm
  have hop : opField w = opField (encode c i) := opField_eq_of_mask opField_mask hsame
  cases i
  case cls | ret =>
    have hw := (BitVec.and_allOnes.symm.trans hsame).trans BitVec.and_allOnes
    subst hw
    exact ⟨_, decodeWord_encode hc hi, rfl⟩
  case ldReg | orReg | andReg | xorReg | addReg | subReg | shr | subnReg | shl =>
    have hn := nField_eq_of_mask (by simp only [rowOf]; decide) hsame
    simp only [encode, opField_formXYN, nField_formXYN] at hop hn
    simp [decodeWord, decode8, hop, hn, rowOf]
  case skp | sknp | ldVxDt | ldVxK | ldDtVx | ldStVx | addI | ldF | ldB | storeRegs | loadRegs =>
    have hkk := kkField_eq_of_mask (by simp only [rowOf]; decide) hsame
    simp only [encode, opField_formXK, kkField_formXK] at hop hkk
    simp [decodeWord, decodeE, decodeF, hop, hkk, rowOf]
  case ldVxSt =>
    obtain ⟨b, hb⟩ := Option.isSome_iff_exists.mp hi
    have hkk := kkField_eq_of_mask (by simp only [rowOf]; decide) hsame
    simp only [encode, opField_formXK, kkField_formXK, hb, Option.getD_some] at hop hkk
    rw [← formXK_fields hop hkk]
    exact ⟨_, decodeWord_ldVxSt hc hb _, rfl⟩
  all_goals
    -- a first-level row: the family alone decides
    simp only [encode, opField_formA, opField_formXK, opField_formXYN] at hop
    simp [decodeWord, hop, rowOf]

end

/-- Settles O2: what decoding establishes gives the row, and the fixed bits of a row decide the decoding. -/
theorem decodingFollowsTheUniqueMatchingRow : Obligations.DecodingFollowsTheUniqueMatchingRow := by
  unfold Obligations.DecodingFollowsTheUniqueMatchingRow
  intro c w hc
  refine ⟨fun i h => ?_, fun i hi h => decodeWord_of_matchesRow hc hi h⟩
  have hreads := readsAs_of_decodeWord h
  exact ⟨hreads.1, matchesRow_of_readsAs hreads⟩

/-- Settles O5: on written-out words the decoder computes. -/
theorem sampleWordsDecode : Obligations.SampleWordsDecode := by
  unfold Obligations.SampleWordsDecode
  exact fun c => ⟨rfl, rfl, rfl, rfl, rfl, rfl, rfl, rfl, rfl, rfl⟩

end Sys2Proof
end

section
/-! PROOFS. Frames (10_state.md): what each shared operation leaves unchanged, and the two shapes most instructions have,
a register write and a flag write that go on to the next instruction. -/

namespace Sys2Proof.Machine

/-! ### Composition -/

theorem Part.Same.trans {p : Part} {s t u : State} (h₁ : p.Same s t) (h₂ : p.Same t u) : p.Same s u := by
  cases p
  case v | mem => exact fun a => (h₂ a).trans (h₁ a)
  all_goals exact Eq.trans h₂ h₁

section
variable {ps qs : List Part} {s t u : State}

theorem UnchangedBut.mono (h : UnchangedBut ps s t) (hsub : ps ⊆ qs) : UnchangedBut qs s t :=
  fun p hp => h p fun hmem => hp (hsub hmem)

theorem UnchangedBut.trans (h₁ : UnchangedBut ps s t) (h₂ : UnchangedBut qs t u) : UnchangedBut (ps ++ qs) s u := by
  intro p hp
  rw [List.mem_append, not_or] at hp
  exact (h₁ p hp.1).trans (h₂ p hp.2)

end

/-! ### One frame per operation -/

section
variable (s : State)

theorem State.jump_unchangedBut (w : Word) : UnchangedBut [.pc] s (s.jump w) := by
  intro p hp
  cases p <;> simp_all [Part.Same]

theorem State.setV_unchangedBut (x : Nibble) (b : Byte) : UnchangedBut [.v] s (s.setV x b) := by
  intro p hp
  cases p <;> simp_all [Part.Same]

theorem State.setVFlag_unchangedBut (x : Nibble) (r : Byte) (f : Bool) : UnchangedBut [.v] s (s.setVFlag x r f) := by
  intro p hp
  cases p <;> simp_all [Part.Same]

theorem State.setBank_unchangedBut (k : Nat) (bs : List Byte) : UnchangedBut [.v] s (s.setBank k bs) := by
  intro p hp
  cases p <;> simp_all [Part.Same]

theorem State.setI_unchangedBut (w : Word) : UnchangedBut [.idx] s (s.setI w) := by
  intro p hp
  cases p <;> simp_all [Part.Same]

theorem State.unchangedBut_with_stack (l : List Word) : UnchangedBut [.stack] s { s with stack := l } := by
  intro p hp
  cases p <;> simp_all [Part.Same]

theorem State.unchangedBut_with_disp (d : Display) : UnchangedBut [.disp] s { s with disp := d } := by
  intro p hp
  cases p <;> simp_all [Part.Same]

theorem State.unchangedBut_with_dt (b : Byte) : UnchangedBut [.dt] s { s with dt := b } := by
  intro p hp
  cases p <;> simp_all [Part.Same]

theorem State.unchangedBut_with_st (b : Byte) : UnchangedBut [.st] s { s with st := b } := by
  intro p hp
  cases p <;> simp_all [Part.Same]

theorem State.unchangedBut_with_draws (n : Nat) : UnchangedBut [.draws] s { s with draws := n } := by
  intro p hp
  cases p <;> simp_all [Part.Same]

theorem State.unchangedBut_with_wait (b : Bool) : UnchangedBut [.wait] s { s with wait := b } := by
  intro p hp
  cases p
  case wait => exact absurd (List.mem_singleton_self _) hp
  case v | mem => exact fun _ => rfl
  all_goals rfl

theorem State.unchangedBut_with_waitX (x : Nibble) : UnchangedBut [.waitX] s { s with waitX := x } := by
  intro p hp
  cases p
  case waitX => exact absurd (List.mem_singleton_self _) hp
  case v | mem => exact fun _ => rfl
  all_goals rfl

end

/-- Going on moves `PC` only. -/
theorem UnchangedBut.jump {ps : List Part} {s t : State} (h : UnchangedBut ps s t) (w : Word) :
    UnchangedBut (ps ++ [.pc]) s (t.jump w) := h.trans (t.jump_unchangedBut w)

theorem UnchangedBut.advance {ps : List Part} {s t : State} (h : UnchangedBut ps s t) :
    UnchangedBut (ps ++ [.pc]) s t.advance := h.jump _

/-! ### The common shapes -/

section
variable (s : State)

theorem State.setV_regsUnchangedBut (x : Nibble) (b : Byte) : RegsUnchangedBut [x] s (s.setV x b) :=
  fun _ hr => s.getV_setV_other b fun h => hr (List.mem_singleton.mpr h)

/-- An instruction that writes one register and goes on. -/
theorem State.setV_advance (x : Nibble) (b : Byte) :
    (s.setV x b).advance.getV x = b ∧ (s.setV x b).advance.pc = s.pc + 2 ∧
      RegsUnchangedBut [x] s (s.setV x b).advance ∧ UnchangedBut [.v, .pc] s (s.setV x b).advance :=
  ⟨s.getV_setV_same x b, rfl, s.setV_regsUnchangedBut x b, (s.setV_unchangedBut x b).advance⟩

theorem State.setVFlag_regsUnchangedBut (x : Nibble) (r : Byte) (f : Bool) :
    RegsUnchangedBut [x, vf] s (s.setVFlag x r f) := by
  intro q hq
  simp only [List.mem_cons, List.not_mem_nil, or_false, not_or] at hq
  exact s.getV_setVFlag_other r f hq.1 hq.2

/-- An instruction that writes a result and then the flag and goes on (42_arithmetic.md R156). -/
theorem State.setVFlag_advance (x : Nibble) (r : Byte) (f : Bool) :
    (s.setVFlag x r f).advance.getV 0xF = flagByte f ∧ (x ≠ 0xF → (s.setVFlag x r f).advance.getV x = r) ∧
      (s.setVFlag x r f).advance.pc = s.pc + 2 ∧ RegsUnchangedBut [x, 0xF] s (s.setVFlag x r f).advance ∧
      UnchangedBut [.v, .pc] s (s.setVFlag x r f).advance :=
  ⟨s.getV_setVFlag_vf x r f, fun hx => s.getV_setVFlag_result r f hx, rfl, s.setVFlag_regsUnchangedBut x r f,
    (s.setVFlag_unchangedBut x r f).advance⟩

/-- A wait that begins changes the flag and its register only (46_key_wait.md R205). -/
theorem State.latched_unchangedBut (x : Nibble) : UnchangedBut [.wait, .waitX] s { s with wait := true, waitX := x } :=
  (s.unchangedBut_with_wait true).trans (State.unchangedBut_with_waitX _ x)

/-- A skip moves `PC` only. -/
theorem State.skipIf_unchangedBut (b : Bool) : UnchangedBut [.pc] s (s.skipIf b) := s.jump_unchangedBut _

end

end Sys2Proof.Machine
end

section
/-! PROOFS. The instructions that complete in every state: control flow without the stack, arithmetic, the index
register, the random byte, the key skips and the timers. -/

namespace Sys2Proof.Machine

/-! ### Control flow (41_control_flow.md) -/

theorem blankDisplay_pixel (r c : Nat) : Display.pixel blankDisplay r c = false := by
  by_cases hr : r < 32 <;> simp [Display.pixel, blankDisplay, hr]

/-- Settles O17: the new display is blank. -/
theorem clsClearsTheDisplay : Obligations.ClsClearsTheDisplay := by
  unfold Obligations.ClsClearsTheDisplay
  intro s
  exact ⟨_, rfl, blankDisplay_pixel, rfl, (s.unchangedBut_with_disp blankDisplay).advance⟩

theorem zextAddr_toNat (nnn : Addr12) : (zextAddr nnn).toNat = nnn.toNat :=
  BitVec.toNat_setWidth_of_le (by decide)

/-- Settles O19: the jump sets `PC` and nothing else. -/
theorem jpSetsPc : Obligations.JpSetsPc := by
  unfold Obligations.JpSetsPc
  intro nnn s
  exact ⟨_, rfl, zextAddr_toNat nnn, s.jump_unchangedBut _⟩

/-- Settles O21: each is a skip on its comparison. -/
theorem compareSkipsMovePcOnly : Obligations.CompareSkipsMovePcOnly := by
  unfold Obligations.CompareSkipsMovePcOnly
  intro x y kk s
  refine ⟨⟨_, rfl, ?_, s.skipIf_unchangedBut _⟩, ⟨_, rfl, ?_, s.skipIf_unchangedBut _⟩,
    ⟨_, rfl, ?_, s.skipIf_unchangedBut _⟩, ⟨_, rfl, ?_, s.skipIf_unchangedBut _⟩⟩ <;>
    simp

/-! ### Arithmetic (42_arithmetic.md) -/

/-- Settles O24: both write one register, the second the sum. -/
theorem immediateLoadAndAdd : Obligations.ImmediateLoadAndAdd := by
  unfold Obligations.ImmediateLoadAndAdd
  intro x kk s
  refine ⟨⟨_, rfl, s.setV_advance x kk⟩, ?_⟩
  obtain ⟨hx, hframe⟩ := s.setV_advance x (s.getV x + kk)
  exact ⟨_, rfl, by rw [hx, BitVec.toNat_add], hframe⟩

/-- Settles O25: the four write one register with their value. -/
theorem copyAndBitwise : Obligations.CopyAndBitwise := by
  unfold Obligations.CopyAndBitwise
  intro x y s
  exact ⟨⟨_, rfl, s.setV_advance x _⟩, ⟨_, rfl, s.setV_advance x _⟩, ⟨_, rfl, s.setV_advance x _⟩,
    ⟨_, rfl, s.setV_advance x _⟩⟩

theorem flagByte_eq_ite (p : Prop) [Decidable p] : flagByte (decide p) = if p then 1 else 0 := by
  simp [flagByte]

theorem flagByte_toNat (b : Bool) : (flagByte b).toNat = b.toNat := by
  cases b <;> rfl

/-- Settles O26: the flag is the carry and the result the sum. -/
theorem addSetsCarry : Obligations.AddSetsCarry := by
  unfold Obligations.AddSetsCarry
  intro x y s
  obtain ⟨hflag, hx, hframe⟩ := s.setVFlag_advance x (s.getV x + s.getV y) (carry (s.getV x) (s.getV y))
  exact ⟨_, rfl, hflag.trans (flagByte_eq_ite _), fun h => by rw [hx h, BitVec.toNat_add], hframe⟩

/-- A difference modulo 256. -/
theorem Byte.toNat_sub (a b : Byte) : (a - b).toNat = (a.toNat + 256 - b.toNat) % 256 := by
  bv_omega

/-- Settles O27: the flag is the missing borrow and the result the difference, in either order. -/
theorem subtractionsSetNoBorrow : Obligations.SubtractionsSetNoBorrow := by
  unfold Obligations.SubtractionsSetNoBorrow
  intro x y s
  constructor
  · obtain ⟨hflag, hx, hframe⟩ := s.setVFlag_advance x (s.getV x - s.getV y) (noBorrow (s.getV x) (s.getV y))
    exact ⟨_, rfl, hflag.trans (flagByte_eq_ite _), fun h => by rw [hx h, Byte.toNat_sub], hframe⟩
  · obtain ⟨hflag, hx, hframe⟩ := s.setVFlag_advance x (s.getV y - s.getV x) (noBorrow (s.getV y) (s.getV x))
    exact ⟨_, rfl, hflag.trans (flagByte_eq_ite _), fun h => by rw [hx h, Byte.toNat_sub], hframe⟩

/-- The bit a right shift loses is the remainder by 2 (R159). -/
theorem shiftedOutRight_toNat (a : Byte) : (shiftedOutRight a).toNat = a.toNat % 2 := by
  rw [shiftedOutRight, BitVec.getLsbD, Nat.toNat_testBit, pow_zero, Nat.div_one]

/-- The bit a left shift loses is the top one of eight (R161). -/
theorem shiftedOutLeft_toNat (a : Byte) : (shiftedOutLeft a).toNat = a.toNat / 128 := by
  have := a.isLt
  rw [shiftedOutLeft, BitVec.getLsbD, Nat.toNat_testBit]
  omega

/-- Settles O28: the flag is the lost bit and the result the shifted value. -/
theorem shiftsSetTheLostBit : Obligations.ShiftsSetTheLostBit := by
  unfold Obligations.ShiftsSetTheLostBit
  intro x s
  constructor
  · obtain ⟨hflag, hx, hframe⟩ := s.setVFlag_advance x (s.getV x >>> 1) (shiftedOutRight (s.getV x))
    exact ⟨_, rfl, by rw [hflag, flagByte_toNat, shiftedOutRight_toNat],
      fun h => by rw [hx h, BitVec.toNat_ushiftRight, Nat.shiftRight_eq_div_pow, pow_one], hframe⟩
  · obtain ⟨hflag, hx, hframe⟩ := s.setVFlag_advance x (s.getV x <<< 1) (shiftedOutLeft (s.getV x))
    exact ⟨_, rfl, by rw [hflag, flagByte_toNat, shiftedOutLeft_toNat],
      fun h => by rw [hx h, BitVec.toNat_shiftLeft, Nat.shiftLeft_eq, pow_one, Nat.mul_comm], hframe⟩

/-! ### The index register (43_index_memory.md) -/

theorem zextByte_toNat (b : Byte) : (zextByte b).toNat = b.toNat :=
  BitVec.toNat_setWidth_of_le (by decide)

theorem lowNibble_toNat (b : Byte) : (lowNibble b).toNat = b.toNat % 16 := by
  simp [lowNibble]

/-- With the font where R7 allows it, no glyph address wraps. -/
theorem glyphAddr_toNat {c : Config} (hc : c.fontBase ≤ 0x1B0) (d : Nibble) :
    (glyphAddr c d).toNat = c.fontBase + 5 * d.toNat := by
  have := d.isLt
  rw [glyphAddr, BitVec.toNat_ofNat]
  omega

/-- Settles O30: each writes `I` and goes on. -/
theorem indexRegisterInstructions : Obligations.IndexRegisterInstructions := by
  unfold Obligations.IndexRegisterInstructions
  intro s
  refine ⟨fun nnn => ⟨_, rfl, zextAddr_toNat nnn, rfl, (s.setI_unchangedBut _).advance⟩,
    fun x => ⟨_, rfl, ?_, rfl, (s.setI_unchangedBut _).advance⟩,
    fun x hfont => ⟨_, rfl, ?_, rfl, (s.setI_unchangedBut _).advance⟩⟩
  · change (s.idx + zextByte (s.getV x)).toNat = _
    rw [BitVec.toNat_add, zextByte_toNat]
  · change (glyphAddr s.cfg (lowNibble (s.getV x))).toNat = _
    rw [glyphAddr_toNat hfont, lowNibble_toNat]

/-! ### Random byte, keys, timers (44 to 46) -/

/-- Settles O39: the draw advances the counter, the rest is a register write. -/
theorem rndStoresAMaskedFreeByte : Obligations.RndStoresAMaskedFreeByte := by
  unfold Obligations.RndStoresAMaskedFreeByte
  intro x kk s
  obtain ⟨hx, hpc, hregs, hframe⟩ :=
    ({ s with draws := s.draws + 1 } : State).setV_advance x (Config.rand8 s.draws &&& kk)
  have hdrawn : UnchangedBut ([.draws] ++ [.v, .pc]) s _ := (s.unchangedBut_with_draws (s.draws + 1)).trans hframe
  refine ⟨_, rfl, hx, ?_, rfl, hpc, hregs, hdrawn.mono (by simp)⟩
  have hmask : kk &&& ~~~kk = 0 := BitVec.and_not_self kk
  change State.getV (State.advance _) x &&& ~~~kk = 0
  rw [hx, BitVec.and_assoc, hmask]
  exact BitVec.and_zero

/-- Settles O40: both skip on the key that the low nibble names. -/
theorem keySkipsTestTheLowNibble : Obligations.KeySkipsTestTheLowNibble := by
  unfold Obligations.KeySkipsTestTheLowNibble
  intro x k s hk
  have hkey : lowNibble (s.getV x) = k := BitVec.eq_of_toNat_eq ((lowNibble_toNat _).trans hk.symm)
  subst hkey
  exact ⟨⟨_, rfl, rfl, s.skipIf_unchangedBut _⟩, ⟨_, rfl, by simp, s.skipIf_unchangedBut _⟩⟩

/-- Settles O41: two write one register, two write one timer. -/
theorem timerInstructions : Obligations.TimerInstructions := by
  unfold Obligations.TimerInstructions
  intro x s
  obtain ⟨hx, hpc, hframe⟩ := s.setV_advance x s.st
  exact ⟨⟨_, rfl, s.setV_advance x s.dt⟩, ⟨_, rfl, hx, hpc, rfl, hframe⟩,
    ⟨_, rfl, rfl, rfl, (s.unchangedBut_with_dt _).advance⟩,
    ⟨_, rfl, rfl, decide_eq_true_iff, rfl, (s.unchangedBut_with_st _).advance⟩⟩

end Sys2Proof.Machine
end

section
/-! PROOFS. The instructions that can report an error, and the key wait: when each gives a next state, and which
(20_memory.md R60, 10_state.md R28, 46_key_wait.md R205). -/

namespace Sys2Proof.Machine

variable {s t : State} {x y n : Nibble}

/-- An operation that gives `a` under a condition and an error otherwise goes on exactly under that condition. -/
theorem orRaise_next_of_cases {α : Type} {r : Except Fault α} {a : α} {f : Fault} {p : Prop} {κ : α → State}
    (h : (r = .ok a ∧ p) ∨ (r = .error f ∧ ¬ p)) : orRaise r κ = .next t ↔ p ∧ t = κ a := by
  obtain ⟨rfl, hp⟩ | ⟨rfl, hp⟩ := h <;> simp [orRaise, raise, hp, eq_comm]

theorem execRet_next :
    exec .ret s = .next t ↔ ∃ w rest, s.stack = w :: rest ∧ t = ({ s with stack := rest } : State).jump w := by
  rw [exec, execRet, orRaise_next]
  obtain ⟨w, rest, hs, hpop⟩ | ⟨hs, hpop⟩ := s.pop_cases
  · simp [hs, hpop, eq_comm]
  · simp [hs, hpop]

/-- The state after `CALL nnn` (`execCall_next`): the return address on the stack, `PC` at the target. -/
def State.called (s : State) (nnn : Addr12) : State :=
  ({ s with stack := (s.pc + 2) :: s.stack } : State).jump (zextAddr nnn)

theorem execCall_next {nnn : Addr12} : exec (.call nnn) s = .next t ↔ s.sp < s.cfg.stackDepth ∧ t = s.called nnn :=
  orRaise_next_of_cases (s.push_cases (s.pc + 2))

theorem execLdB_next :
    exec (.ldB x) s = .next t ↔
      s.idx.toNat + 2 ≤ 4095 ∧ t = (s.setBytes s.idx.toNat (digits (s.getV x))).advance := by
  rw [exec, execLdB, orRaise_next_of_cases (s.storeRange_cases _ _)]
  simp [digits, State.ea]

/-- The range of a bank of `x + 1` bytes lies in memory (43_index_memory.md R173). -/
theorem bank_in_memory_iff : (x.toNat + 1 = 0 ∨ s.ea 0 + (x.toNat + 1) ≤ memSize) ↔ s.idx.toNat + x.toNat ≤ 4095 := by
  simp only [State.ea, memSize]
  omega

theorem execStoreRegs_next :
    exec (.storeRegs x) s = .next t ↔
      s.idx.toNat + x.toNat ≤ 4095 ∧ t = (s.setBytes s.idx.toNat (s.bank x)).advance := by
  rw [exec, execStoreRegs, orRaise_next_of_cases (s.storeRange_cases _ _), State.bank_length, bank_in_memory_iff]
  rfl

theorem execLoadRegs_next :
    exec (.loadRegs x) s = .next t ↔
      s.idx.toNat + x.toNat ≤ 4095 ∧ t = (s.setBank 0 (s.bytesAt s.idx.toNat (x.toNat + 1))).advance := by
  rw [exec, execLoadRegs, orRaise_next_of_cases (s.loadRange_cases _ _), bank_in_memory_iff]
  rfl

/-- The sprite drawn by `DRW Vx, Vy, n`: the display with it, and whether a pixel was hit (47_draw.md R216). -/
def State.blitSprite (s : State) (x y n : Nibble) : Display × Bool :=
  blit s.disp (startCol (s.getV x)) (startRow (s.getV y)) (s.bytesAt s.idx.toNat n.toNat)

/-- The state after `DRW Vx, Vy, n` (`execDrw_next`). -/
def State.drawn (s : State) (x y n : Nibble) : State :=
  (({ s with disp := (s.blitSprite x y n).1 } : State).setV vf (flagByte (s.blitSprite x y n).2)).advance

theorem execDrw_next :
    exec (.drw x y n) s = .next t ↔ (n.toNat = 0 ∨ s.idx.toNat + n.toNat ≤ 4096) ∧ t = s.drawn x y n :=
  orRaise_next_of_cases (s.loadRange_cases _ _)

/-- With a key down the key wait stores the lowest code and goes on (46_key_wait.md R205). -/
theorem exec_ldVxK_of_lowestKey {k : Nibble} (hk : s.LowestKey k) :
    exec (.ldVxK x) s = .next (s.setV x (keyByte k)).advance := by
  simp [exec, execLdVxK, s.pollInto_some x hk]

/-- With no key down it latches its register (R205). -/
theorem exec_ldVxK_of_noKey (hnone : ∀ k : Nibble, s.keyPressed k = false) :
    exec (.ldVxK x) s = .next { s with wait := true, waitX := x } := by
  simp [exec, execLdVxK, s.pollInto_none x hnone]

theorem exec_ldVxK_cases (h : exec (.ldVxK x) s = .next t) :
    (∃ k, s.LowestKey k ∧ t = (s.setV x (keyByte k)).advance) ∨
      ((∀ k : Nibble, s.keyPressed k = false) ∧ t = { s with wait := true, waitX := x }) := by
  obtain ⟨k, hk⟩ | hnone := s.lowestKey_or_none
  · rw [exec_ldVxK_of_lowestKey hk] at h
    exact .inl ⟨k, hk, (Host.Outcome.next.inj h).symm⟩
  · rw [exec_ldVxK_of_noKey hnone] at h
    exact .inr ⟨hnone, (Host.Outcome.next.inj h).symm⟩

/-- With a key down a waiting tick stores the lowest code, goes on and ends the wait (R207). -/
theorem State.waitTick_of_lowestKey {k : Nibble} (hk : s.LowestKey k) :
    s.waitTick = { (s.setV s.waitX (keyByte k)).advance with wait := false } := by
  simp [State.waitTick, s.pollInto_some s.waitX hk]

/-- With no key down it changes nothing (R207). -/
theorem State.waitTick_of_noKey (hnone : ∀ k : Nibble, s.keyPressed k = false) : s.waitTick = s := by
  simp [State.waitTick, s.pollInto_none s.waitX hnone]

theorem keyByte_toNat (k : Nibble) : (keyByte k).toNat = k.toNat :=
  BitVec.toNat_setWidth_of_le (by decide)

end Sys2Proof.Machine
end

section
/-! PROOFS. What each instruction can change (10_state.md R21 to R35): the pieces of state, the registers, the flag and
`PC`. Each is said once, for all instructions. -/

namespace Sys2Proof.Machine

/-- The pieces of state an instruction may change (`exec_unchangedBut`). -/
def touched (i : Instr) : List Part :=
  match i with
  | .jp _ | .seImm _ _ | .sneImm _ _ | .seReg _ _ | .sneReg _ _ | .skp _ | .sknp _ => [.pc]
  | .ret | .call _ => [.stack, .pc]
  | .ldImm _ _ | .addImm _ _ | .ldReg _ _ | .orReg _ _ | .andReg _ _ | .xorReg _ _ | .addReg _ _ => [.v, .pc]
  | .subReg _ _ | .shr _ | .subnReg _ _ | .shl _ | .ldVxDt _ | .ldVxSt _ | .loadRegs _ => [.v, .pc]
  | .ldI _ | .addI _ | .ldF _ => [.idx, .pc]
  | .ldB _ | .storeRegs _ => [.mem, .pc]
  | .cls => [.disp, .pc]
  | .drw _ _ _ => [.disp, .v, .pc]
  | .rnd _ _ => [.draws, .v, .pc]
  | .ldDtVx _ => [.dt, .pc]
  | .ldStVx _ => [.st, .pc]
  | .ldVxK _ => [.v, .pc, .wait, .waitX]

variable {i : Instr} {s t : State}

/-- An instruction changes no other piece of state. -/
theorem exec_unchangedBut (h : exec i s = .next t) : UnchangedBut (touched i) s t := by
  cases i
  case jp | seImm | sneImm | seReg | sneReg | skp | sknp =>
    cases h
    exact s.jump_unchangedBut _
  case ldImm | addImm | ldReg | orReg | andReg | xorReg | ldVxDt | ldVxSt =>
    cases h
    exact (s.setV_unchangedBut _ _).advance
  case addReg | subReg | shr | subnReg | shl =>
    cases h
    exact (s.setVFlag_unchangedBut _ _ _).advance
  case ldI | addI | ldF =>
    cases h
    exact (s.setI_unchangedBut _).advance
  case cls =>
    cases h
    exact (s.unchangedBut_with_disp _).advance
  case ldDtVx =>
    cases h
    exact (s.unchangedBut_with_dt _).advance
  case ldStVx =>
    cases h
    exact (s.unchangedBut_with_st _).advance
  case rnd =>
    cases h
    exact ((s.unchangedBut_with_draws _).trans (State.setV_unchangedBut _ _ _)).advance
  case ret =>
    obtain ⟨w, rest, -, rfl⟩ := execRet_next.mp h
    exact (s.unchangedBut_with_stack rest).jump w
  case call =>
    obtain ⟨-, rfl⟩ := execCall_next.mp h
    exact (s.unchangedBut_with_stack _).jump _
  case drw =>
    obtain ⟨-, rfl⟩ := execDrw_next.mp h
    exact ((s.unchangedBut_with_disp _).trans (State.setV_unchangedBut _ _ _)).advance
  case ldB =>
    obtain ⟨-, rfl⟩ := execLdB_next.mp h
    exact (s.setBytes_unchangedBut _ _).advance
  case storeRegs =>
    obtain ⟨-, rfl⟩ := execStoreRegs_next.mp h
    exact (s.setBytes_unchangedBut _ _).advance
  case loadRegs =>
    obtain ⟨-, rfl⟩ := execLoadRegs_next.mp h
    exact (s.setBank_unchangedBut _ _).advance
  case ldVxK =>
    obtain ⟨k, -, rfl⟩ | ⟨-, rfl⟩ := exec_ldVxK_cases h
    · exact (s.setV_unchangedBut _ _).advance.mono (by simp [touched])
    · exact (s.latched_unchangedBut _).mono (by simp [touched])

/-- A register keeps its value if the instruction does not name it as destination and does not write it as the flag
(R21, R22). -/
theorem exec_getV (h : exec i s = .next t) {r : Nibble} (hd : ¬ namesDest i r) (hf : ¬ (writesFlag i = true ∧ r = vf)) :
    t.getV r = s.getV r := by
  cases i
  case ldImm | addImm | ldReg | orReg | andReg | xorReg | ldVxDt | ldVxSt | rnd =>
    cases h
    exact State.getV_setV_other _ _ hd
  case addReg | subReg | shr | subnReg | shl =>
    cases h
    exact State.getV_setVFlag_other _ _ _ hd fun hr => hf ⟨rfl, hr⟩
  case drw =>
    obtain ⟨-, rfl⟩ := execDrw_next.mp h
    exact State.getV_setV_other _ _ fun hr => hf ⟨rfl, hr⟩
  case loadRegs x =>
    obtain ⟨-, rfl⟩ := execLoadRegs_next.mp h
    rw [State.getV_advance, State.getV_setBank, dif_neg]
    rw [State.bytesAt_length]
    simp only [namesDest] at hd
    omega
  case ldVxK =>
    obtain ⟨k, -, rfl⟩ | ⟨-, rfl⟩ := exec_ldVxK_cases h
    · exact State.getV_setV_other _ _ hd
    · rfl
  all_goals exact exec_unchangedBut h .v (by simp [touched]) r

/-- The six flag writers leave a flag in VF (R22). -/
theorem exec_writesFlag (h : exec i s = .next t) (hf : writesFlag i = true) : ∃ b, t.getV vf = flagByte b := by
  cases i
  case addReg | subReg | shr | subnReg | shl =>
    cases h
    exact ⟨_, State.getV_setVFlag_vf _ _ _ _⟩
  case drw =>
    obtain ⟨-, rfl⟩ := execDrw_next.mp h
    exact ⟨_, State.getV_setV_same _ _ _⟩
  all_goals cases hf

theorem zextAddr_eq_ofNat (nnn : Addr12) : zextAddr nnn = BitVec.ofNat 16 nnn.toNat :=
  (BitVec.ofNat_toNat 16 nnn).symm

theorem lowNibble_eq_ofNat (b : Byte) : lowNibble b = BitVec.ofNat 4 (b.toNat % 16) :=
  BitVec.eq_of_toNat_eq (by simp [lowNibble_toNat])

/-- Where `PC` is after an instruction (R25). -/
theorem exec_pc (h : exec i s = .next t) : t.pc = pcAfter i s := by
  cases i
  case jp nnn =>
    cases h
    exact zextAddr_eq_ofNat nnn
  case seImm | sneImm | seReg | sneReg =>
    cases h
    simp [pcAfter]
  case skp =>
    cases h
    simp [pcAfter, ← lowNibble_eq_ofNat]
  case sknp x =>
    cases h
    cases hkey : s.keyPressed (lowNibble (s.getV x)) <;> simp [pcAfter, ← lowNibble_eq_ofNat, hkey]
  case ret =>
    obtain ⟨w, rest, hs, rfl⟩ := execRet_next.mp h
    simp [pcAfter, hs]
  case call nnn =>
    obtain ⟨-, rfl⟩ := execCall_next.mp h
    exact zextAddr_eq_ofNat nnn
  case drw =>
    obtain ⟨-, rfl⟩ := execDrw_next.mp h
    rfl
  case ldB =>
    obtain ⟨-, rfl⟩ := execLdB_next.mp h
    simp [pcAfter]
  case storeRegs =>
    obtain ⟨-, rfl⟩ := execStoreRegs_next.mp h
    simp [pcAfter]
  case loadRegs =>
    obtain ⟨-, rfl⟩ := execLoadRegs_next.mp h
    simp [pcAfter]
  case ldVxK =>
    obtain ⟨k, hlow, rfl⟩ | ⟨hnone, rfl⟩ := exec_ldVxK_cases h
    · simp [pcAfter, s.keyPick_of_lowest hlow]
    · simp [pcAfter, s.keyPick_none.mpr hnone]
  all_goals
    cases h
    rfl

/-- Settles O15: the table entry of each instruction; an error keeps the state. -/
theorem programCounterMovesAsTabled : Obligations.ProgramCounterMovesAsTabled := by
  unfold Obligations.ProgramCounterMovesAsTabled
  refine ⟨fun i s t h => exec_pc h, fun s t f h => ?_⟩
  obtain ⟨-, rfl⟩ := respond_tick_fault_iff.mp h
  rfl

/-- Settles O29: the flag writers leave a flag, and any other instruction writes only registers it names. -/
theorem vfWrittenOnlyAsTabled : Obligations.VfWrittenOnlyAsTabled := by
  unfold Obligations.VfWrittenOnlyAsTabled
  intro i s t h
  constructor
  · intro hf
    obtain ⟨b, hb⟩ := exec_writesFlag h hf
    cases b
    · exact .inl hb
    · exact .inr hb
  · intro hf hd
    exact exec_getV h hd fun hw => by simp [hf] at hw

/-! ### The writers of each piece of state -/

theorem cfg_notMem_touched : Part.cfg ∉ touched i := by cases i <;> simp [touched]
theorem keys_notMem_touched : Part.keys ∉ touched i := by cases i <;> simp [touched]
theorem wait_mem_touched : Part.wait ∈ touched i ↔ ∃ x, i = .ldVxK x := by cases i <;> simp [touched]
theorem waitX_mem_touched : Part.waitX ∈ touched i ↔ ∃ x, i = .ldVxK x := by cases i <;> simp [touched]
theorem dt_mem_touched : Part.dt ∈ touched i ↔ ∃ x, i = .ldDtVx x := by cases i <;> simp [touched]
theorem st_mem_touched : Part.st ∈ touched i ↔ ∃ x, i = .ldStVx x := by cases i <;> simp [touched]
theorem disp_mem_touched : Part.disp ∈ touched i ↔ i = .cls ∨ ∃ x y n, i = .drw x y n := by
  cases i <;> simp [touched]
theorem mem_mem_touched : Part.mem ∈ touched i ↔ ∃ x, i = .storeRegs x ∨ i = .ldB x := by cases i <;> simp [touched]
theorem stack_mem_touched : Part.stack ∈ touched i ↔ i = .ret ∨ ∃ nnn, i = .call nnn := by cases i <;> simp [touched]
theorem idx_mem_touched : Part.idx ∈ touched i ↔ (∃ nnn, i = .ldI nnn) ∨ ∃ x, i = .addI x ∨ i = .ldF x := by
  cases i <;> simp [touched]
theorem draws_mem_touched : Part.draws ∈ touched i ↔ ∃ x kk, i = .rnd x kk := by cases i <;> simp [touched]

/-- A piece reads the same after an instruction, or the instruction is one of its writers. -/
theorem exec_same_or_touched (h : exec i s = .next t) (p : Part) : p.Same s t ∨ p ∈ touched i := by
  by_cases hp : p ∈ touched i
  · exact .inr hp
  · exact .inl (exec_unchangedBut h p hp)

/-- The wait changes only by a key wait that finds no key down, which latches (46_key_wait.md R205). -/
theorem exec_wait (h : exec i s = .next t) :
    (t.wait = s.wait ∧ t.waitX = s.waitX) ∨
      ∃ x, i = .ldVxK x ∧ (∀ k : Nibble, s.keyPressed k = false) ∧ t = { s with wait := true, waitX := x } := by
  by_cases hK : ∃ x, i = .ldVxK x
  · obtain ⟨x, rfl⟩ := hK
    obtain ⟨k, -, rfl⟩ | ⟨hnone, rfl⟩ := exec_ldVxK_cases h
    · exact .inl ⟨rfl, rfl⟩
    · exact .inr ⟨x, rfl, hnone, rfl⟩
  · have hwait := exec_unchangedBut h .wait fun hm => hK (wait_mem_touched.mp hm)
    have hwaitX := exec_unchangedBut h .waitX fun hm => hK (waitX_mem_touched.mp hm)
    exact .inl ⟨hwait, hwaitX⟩

/-- Settles O46: a waiting tick stays or ends its wait; an executed instruction changes only what it touches. -/
theorem eachPieceHasItsWriters : Obligations.EachPieceHasItsWriters := by
  unfold Obligations.EachPieceHasItsWriters
  intro s t h ran resumed
  obtain ⟨hw, hstep⟩ | ⟨-, f, -, hstep⟩ | ⟨hw, i, hi, hstep⟩ := step_cases s <;> rw [hstep] at h
  case inl =>
    cases h
    obtain ⟨k, hk⟩ | hnone := s.lowestKey_or_none
    · have hresumed : resumed := ⟨hw, k, hk.1⟩
      rw [State.waitTick_of_lowestKey hk]
      refine ⟨rfl, rfl, fun r => ?_, .inr (.inl ⟨hresumed, rfl⟩), .inr (.inl ⟨hresumed, rfl⟩), .inl rfl, .inl rfl, .inl rfl,
        .inl rfl, .inl fun _ => rfl, .inl rfl, .inl rfl, .inl rfl⟩
      by_cases hr : r = s.waitX
      · exact .inr (.inl ⟨hresumed, hr⟩)
      · exact .inl (s.getV_setV_other _ hr)
    · rw [State.waitTick_of_noKey hnone]
      exact ⟨rfl, rfl, fun _ => .inl rfl, .inl rfl, .inl rfl, .inl rfl, .inl rfl, .inl rfl, .inl rfl, .inl fun _ => rfl,
        .inl rfl, .inl rfl, .inl rfl⟩
  case inr.inl => cases h
  case inr.inr =>
    have hran : ran i := ⟨hw, hi⟩
    have hpiece := exec_same_or_touched h
    have hregs : ∀ r, t.getV r = s.getV r ∨ namesDest i r ∨ (writesFlag i = true ∧ r = 0xF) := by
      intro r
      by_contra hcon
      obtain ⟨hne, hd, hf⟩ := by simpa only [not_or] using hcon
      exact hne (exec_getV h hd hf)
    refine ⟨exec_unchangedBut h .keys keys_notMem_touched, exec_unchangedBut h .cfg cfg_notMem_touched,
      fun r => (hregs r).imp_right fun hr => .inr ⟨i, hran, hr⟩, .inr (.inr ⟨i, hran, exec_pc h⟩), ?wait, ?waitX,
      (hpiece .dt).imp_right fun hm => ?dt, (hpiece .st).imp_right fun hm => ?st,
      (hpiece .disp).imp_right fun hm => ?disp, (hpiece .mem).imp_right fun hm => ?mem,
      (hpiece .stack).imp_right fun hm => ?stack, (hpiece .idx).imp_right fun hm => ?idx,
      (hpiece .draws).imp_right fun hm => ?draws⟩
    case wait =>
      obtain ⟨hsame, -⟩ | ⟨x, rfl, hnone, rfl⟩ := exec_wait h
      · exact .inl hsame
      · exact .inr (.inr ⟨x, hran, hnone, rfl⟩)
    case waitX =>
      obtain ⟨-, hsame⟩ | ⟨x, rfl, hnone, rfl⟩ := exec_wait h
      · exact .inl hsame
      · exact .inr ⟨x, hran, hnone, rfl⟩
    case dt =>
      obtain ⟨x, rfl⟩ := dt_mem_touched.mp hm
      exact ⟨x, hran⟩
    case st =>
      obtain ⟨x, rfl⟩ := st_mem_touched.mp hm
      exact ⟨x, hran⟩
    case disp =>
      obtain rfl | ⟨x, y, n, rfl⟩ := disp_mem_touched.mp hm
      · exact .inl hran
      · exact .inr ⟨x, y, n, hran⟩
    case mem =>
      obtain ⟨x, rfl | rfl⟩ := mem_mem_touched.mp hm
      · exact ⟨x, .inl hran⟩
      · exact ⟨x, .inr hran⟩
    case stack =>
      obtain rfl | ⟨nnn, rfl⟩ := stack_mem_touched.mp hm
      · exact .inl hran
      · exact .inr ⟨nnn, hran⟩
    case idx =>
      obtain ⟨nnn, rfl⟩ | ⟨x, rfl | rfl⟩ := idx_mem_touched.mp hm
      · exact .inl ⟨nnn, hran⟩
      · exact .inr ⟨x, .inl hran⟩
      · exact .inr ⟨x, .inr hran⟩
    case draws =>
      obtain ⟨x, kk, rfl⟩ := draws_mem_touched.mp hm
      exact ⟨x, kk, hran⟩

end Sys2Proof.Machine
end

section
/-! PROOFS. The call stack (41_control_flow.md): RET, CALL, and nested calls. -/

namespace Sys2Proof.Machine

variable {s t : State}

/-- Settles O18: a pop of the most recent entry into `PC`, or underflow. -/
theorem retPopsIntoPc : Obligations.RetPopsIntoPc := by
  unfold Obligations.RetPopsIntoPc
  constructor
  · intro s w rest hs
    have h := execRet_next.mpr ⟨w, rest, hs, rfl⟩
    exact ⟨_, h, rfl, rfl, (exec_unchangedBut h).mono (by simp [touched])⟩
  · intro s hs
    exact exec_fault_iff.mpr (.inr (.inr ⟨rfl, hs, rfl⟩))

@[simp] theorem State.sp_called (s : State) (nnn : Addr12) : (s.called nnn).sp = s.sp + 1 := rfl
@[simp] theorem State.cfg_called (s : State) (nnn : Addr12) : (s.called nnn).cfg = s.cfg := rfl

/-- The return address becomes entry `STACK[SP]`, and the entries below stay (10_state.md R28). -/
theorem State.stackEntry_called_new (s : State) (nnn : Addr12) : (s.called nnn).stackEntry s.sp = some (s.pc + 2) := by
  simp [State.stackEntry, State.called, State.sp]

theorem State.stackEntry_called_below (s : State) (nnn : Addr12) {k : Nat} (hk : k < s.sp) :
    (s.called nnn).stackEntry k = s.stackEntry k := by
  have hk' : k < s.stack.reverse.length := by simpa [State.sp] using hk
  simp [State.stackEntry, State.called, List.getElem?_append_left hk']

/-- Settles O20: a push of `pc + 2` with the jump, or overflow. -/
theorem callPushesReturnAddress : Obligations.CallPushesReturnAddress := by
  unfold Obligations.CallPushesReturnAddress
  constructor
  · intro nnn s hroom
    have h := (execCall_next (nnn := nnn)).mpr ⟨hroom, rfl⟩
    exact ⟨_, h, zextAddr_toNat nnn, s.stackEntry_called_new nnn, s.sp_called nnn,
      fun k hk => s.stackEntry_called_below nnn hk, (exec_unchangedBut h).mono (by simp [touched])⟩
  · intro nnn s hfull
    exact exec_fault_iff.mpr (.inr (.inl ⟨⟨nnn, rfl⟩, hfull.ge, rfl⟩))

/-! ### Sequences -/

theorem execSeq_cons_of_next {i : Instr} {is : List Instr} (h : exec i s = .next t) :
    execSeq (i :: is) s = execSeq is t := by
  simp only [execSeq, h]

theorem execSeq_cons_of_fault {i : Instr} {is : List Instr} {f : Fault} (h : exec i s = .fault f) :
    execSeq (i :: is) s = .fault f := by
  simp only [execSeq, h]

/-- A sequence that completes can be followed by another. -/
theorem execSeq_append_of_next {is js : List Instr} (h : execSeq is s = .next t) :
    execSeq (is ++ js) s = execSeq js t := by
  induction is generalizing s with
  | nil =>
    cases h
    rfl
  | cons i is ih =>
    cases hi : exec i s with
    | next u =>
      rw [execSeq_cons_of_next hi] at h
      rw [List.cons_append, execSeq_cons_of_next hi]
      exact ih h
    | fault f => simp [execSeq, hi] at h
    | refused q => simp [execSeq, hi] at h

/-- Calls that fit on the stack, followed by as many returns, restore all but `PC`; the outermost return leaves `PC`
after the outermost call. -/
theorem execSeq_calls_rets (targets : List Addr12) (hroom : s.sp + targets.length ≤ s.cfg.stackDepth) :
    ∃ t, execSeq (targets.map Instr.call ++ List.replicate targets.length Instr.ret) s = .next t ∧
      (targets ≠ [] → t.pc = s.pc + 2) ∧ UnchangedBut [.pc] s t := by
  induction targets generalizing s with
  | nil => exact ⟨s, rfl, fun h => absurd rfl h, (s.jump_unchangedBut s.pc)⟩
  | cons nnn rest ih =>
    rw [List.length_cons] at hroom
    -- the outermost call
    have hcall := (execCall_next (nnn := nnn)).mpr ⟨show s.sp < s.cfg.stackDepth by omega, rfl⟩
    -- the nested calls and returns, in the state it leaves
    obtain ⟨u, hu, -, hframe⟩ := ih (s := s.called nnn) (by rw [State.sp_called, State.cfg_called]; omega)
    -- the outermost return
    have hstack : u.stack = (s.pc + 2) :: s.stack := hframe .stack (by simp)
    have hret := execRet_next.mpr ⟨_, _, hstack, rfl⟩
    refine ⟨({ u with stack := s.stack } : State).jump (s.pc + 2), ?_, fun _ => rfl, ?_⟩
    · rw [List.map_cons, List.length_cons, List.replicate_succ', ← List.append_assoc, List.cons_append,
        List.cons_append, execSeq_cons_of_next hcall, execSeq_append_of_next hu, execSeq_cons_of_next hret]
      rfl
    · intro p hp
      by_cases hpstack : p = .stack
      · subst hpstack
        rfl
      · have hps : p ∉ [Part.stack, Part.pc] := by simp_all
        exact ((exec_unchangedBut hcall p hps).trans (hframe p hp)).trans (exec_unchangedBut hret p hps)

/-- Settles O22: the induction over the targets. -/
theorem nestedCallsAndReturnsComeBack : Obligations.NestedCallsAndReturnsComeBack := by
  unfold Obligations.NestedCallsAndReturnsComeBack
  intro targets s hne hroom
  obtain ⟨t, ht, hpc, hframe⟩ := execSeq_calls_rets targets hroom
  exact ⟨t, ht, hpc hne, hframe⟩

/-- Settles O23: each call takes one entry of the room on the stack, and the first without room overflows. -/
theorem nestingBeyondTheBoundOverflows : Obligations.NestingBeyondTheBoundOverflows := by
  unfold Obligations.NestingBeyondTheBoundOverflows
  intro targets
  induction targets with
  | nil =>
    intro s hsp
    exact ⟨fun _ => ⟨s, rfl, rfl⟩, fun h => absurd h (by simpa using hsp)⟩
  | cons nnn rest ih =>
    intro s hsp
    rw [List.length_cons, List.map_cons]
    by_cases hroom : s.sp < s.cfg.stackDepth
    · have hcall := (execCall_next (nnn := nnn)).mpr ⟨hroom, rfl⟩
      have hlength : s.sp + (rest.length + 1) = (s.called nnn).sp + rest.length := by
        rw [State.sp_called]
        omega
      rw [execSeq_cons_of_next hcall, hlength]
      exact ih (s.called nnn) hroom
    · have hcall := exec_fault_iff.mpr (.inr (.inl ⟨⟨nnn, rfl⟩, Nat.le_of_not_lt hroom, rfl⟩))
      exact ⟨fun h => by omega, fun _ => execSeq_cons_of_fault hcall⟩

end Sys2Proof.Machine
end

section
/-! PROOFS. Memory as data (43_index_memory.md, 48_bcd.md, 20_memory.md): glyph bytes, the register-bank transfers, the
decimal store, the coherence of the fetch, and the canonical form. -/

namespace Sys2Proof.Machine

variable {s t : State}

/-! ### Glyphs -/

/-- Memory that nothing has written reads as its default. -/
theorem State.byteAt_of_mem_nil (h : s.mem = []) (a : Nat) : s.byteAt a = defaultByte s.cfg a := by
  rw [State.byteAt, h, Memory.find]

/-- The default bytes from `FONT_BASE` up are the font (10_state.md R36). -/
theorem defaultByte_font (c : Config) {k : Nat} (hk : k < 80) : c.font[k]? = some (defaultByte c (c.fontBase + k)) := by
  simp [defaultByte, hk]

/-- Settles O31: `I` is the glyph's address, and the bytes there are defaults. -/
theorem ldFPointsAtTheGlyphBytes : Obligations.LdFPointsAtTheGlyphBytes := by
  unfold Obligations.LdFPointsAtTheGlyphBytes
  intro s x hc hmem
  obtain ⟨-, hfont, -⟩ := hc
  refine ⟨_, rfl, fun k hk => ?_⟩
  have hdigit := (lowNibble (s.getV x)).isLt
  rw [← lowNibble_toNat, State.byteAt_advance, State.byteAt_setI, State.byteAt_of_mem_nil hmem, State.advance_idx,
    State.setI_idx, glyphAddr_toNat hfont, Nat.add_assoc]
  exact defaultByte_font s.cfg (by omega)

/-! ### The register-bank transfers -/

/-- A byte of a written range reads as written. -/
theorem State.byteAt_setBytes_of_lt (s : State) (a : Nat) {bs : List Byte} {k : Nat} (hk : k < bs.length) :
    (s.setBytes a bs).byteAt (a + k) = bs[k] := by
  simp [State.byteAt_setBytes, hk]

theorem State.byteAt_setBytes_bank (s : State) (a : Nat) (x r : Nibble) (hr : r.toNat ≤ x.toNat) :
    (s.setBytes a (s.bank x)).byteAt (a + r.toNat) = s.getV r := by
  have hin : r.toNat < (s.bank x).length := by
    rw [State.bank_length]
    omega
  rw [State.byteAt_setBytes_of_lt s a hin, State.bank_getElem]

theorem State.getV_setBank_bytesAt (s : State) (a : Nat) (x r : Nibble) :
    (s.setBank 0 (s.bytesAt a (x.toNat + 1))).getV r = if r.toNat ≤ x.toNat then s.byteAt (a + r.toNat) else s.getV r := by
  rw [State.getV_setBank]
  simp [State.bytesAt_length, State.bytesAt_getElem]

/-- Settles O32: in bounds one range write of the bank; out of bounds the error. -/
theorem storeBankWritesTheRange : Obligations.StoreBankWritesTheRange := by
  unfold Obligations.StoreBankWritesTheRange
  intro x s
  constructor
  · intro hin
    have h := execStoreRegs_next.mpr ⟨hin, rfl⟩
    have houtside := s.setBytes_memUnchangedOutside s.idx.toNat (s.bank x)
    rw [State.bank_length] at houtside
    exact ⟨_, h, fun r hr => s.byteAt_setBytes_bank _ x r hr, houtside, exec_pc h, exec_unchangedBut h⟩
  · intro hout
    exact exec_fault_iff.mpr (.inl ⟨hout, rfl⟩)

/-- Settles O33: in bounds one bank read of the range; out of bounds the error. -/
theorem loadBankReadsTheRange : Obligations.LoadBankReadsTheRange := by
  unfold Obligations.LoadBankReadsTheRange
  intro x s
  constructor
  · intro hin
    have h := execLoadRegs_next.mpr ⟨hin, rfl⟩
    have hread := s.getV_setBank_bytesAt s.idx.toNat x
    exact ⟨_, h, fun r hr => (hread r).trans (if_pos hr), fun r hr => (hread r).trans (if_neg (Nat.not_le.mpr hr)),
      exec_pc h, exec_unchangedBut h⟩
  · intro hout
    exact exec_fault_iff.mpr (.inl ⟨hout, rfl⟩)

/-- Settles O34: the load reads back what the store wrote. -/
theorem storeThenLoadRestoresTheBank : Obligations.StoreThenLoadRestoresTheBank := by
  unfold Obligations.StoreThenLoadRestoresTheBank
  intro x s t u hstore hidx hmem
  obtain ⟨hin, rfl⟩ := execStoreRegs_next.mp hstore
  refine ⟨_, execLoadRegs_next.mpr ⟨hidx ▸ hin, rfl⟩, fun r hr => ?_⟩
  rw [State.getV_advance, State.getV_setBank_bytesAt, if_pos hr, hmem, hidx]
  exact s.byteAt_setBytes_bank _ x r hr

/-! ### The decimal store -/

/-- The decimal digits of a byte, hundreds first (48_bcd.md R230). -/
theorem digits_value (b : Byte) : ∃ h d u : Byte, digits b = [h, d, u] ∧
    100 * h.toNat + 10 * d.toNat + u.toNat = b.toNat ∧ d.toNat ≤ 9 ∧ u.toNat ≤ 9 := by
  have := b.isLt
  refine ⟨_, _, _, rfl, ?_⟩
  simp only [BitVec.toNat_ofNat]
  omega

/-- Settles O35: the three bytes written are the digits of the value. -/
theorem bcdStoresThreeDigits : Obligations.BcdStoresThreeDigits := by
  unfold Obligations.BcdStoresThreeDigits
  intro x s
  constructor
  · intro hin
    have h := (execLdB_next (x := x)).mpr ⟨hin, rfl⟩
    have hpc := exec_pc h
    have hframe := exec_unchangedBut h
    obtain ⟨b₀, b₁, b₂, hdigits, hvalue, htens, hones⟩ := digits_value (s.getV x)
    rw [hdigits] at h hpc hframe
    refine ⟨_, h, ?_⟩
    have hbyte (k : Nat) (hk : k < 3) := s.byteAt_setBytes_of_lt s.idx.toNat (bs := [b₀, b₁, b₂]) hk
    have hhundreds : (s.setBytes s.idx.toNat [b₀, b₁, b₂]).byteAt s.idx.toNat = b₀ := hbyte 0 (by decide)
    simp only [State.byteAt_advance, hhundreds, hbyte 1 (by decide), hbyte 2 (by decide)]
    exact ⟨hvalue, htens, hones, s.setBytes_memUnchangedOutside s.idx.toNat [b₀, b₁, b₂], hpc, hframe⟩
  · intro hout
    exact exec_fault_iff.mpr (.inl ⟨hout, rfl⟩)

/-! ### The coherence of the fetch -/

/-- A fetch with both bytes in memory gives them, high byte first. -/
theorem State.fetch_of_lt (h : s.pc.toNat < 0xFFF) :
    s.fetch = .ok (wordOfBytes (s.byteAt s.pc.toNat) (s.byteAt (s.pc.toNat + 1))) := by
  obtain ⟨-, hfetch⟩ | ⟨hge, -⟩ := s.fetch_cases
  · exact hfetch
  · omega

/-- Settles O36: the store writes `V[0]` and `V[1]` at the address of the next fetch. -/
theorem storeIsSeenByTheNextFetch : Obligations.StoreIsSeenByTheNextFetch := by
  unfold Obligations.StoreIsSeenByTheNextFetch
  intro x s t hx hidx hstore
  obtain ⟨hin, rfl⟩ := execStoreRegs_next.mp hstore
  have hpc : (s.setBytes s.idx.toNat (s.bank x)).advance.pc = s.idx := by simp [hidx]
  have hhigh := s.byteAt_setBytes_bank s.idx.toNat x 0 (Nat.zero_le _)
  have hlow := s.byteAt_setBytes_bank s.idx.toNat x 1 hx
  rw [State.fetch_of_lt (by rw [hpc]; omega), hpc]
  exact congrArg₂ (fun hi lo => Except.ok (wordOfBytes hi lo)) hhigh hlow

/-! ### The canonical form -/

section
variable {c : Config}

/-- A canonical list: its first entry is in range and no default, and the rest is canonical above it. -/
theorem Memory.wfFrom_cons {lo a : Nat} {b : Byte} {m : Memory} :
    Memory.wfFrom c lo ((a, b) :: m) = true ↔
      lo ≤ a ∧ a < memSize ∧ b ≠ defaultByte c a ∧ Memory.wfFrom c (a + 1) m = true := by
  simp [Memory.wfFrom, and_assoc]

/-- A canonical list reads as the default below its first address. -/
theorem Memory.find_of_lt {lo a : Nat} {m : Memory} (hm : Memory.wfFrom c lo m = true) (ha : a < lo) (d : Byte) :
    m.find a d = d := by
  induction m generalizing lo with
  | nil => rfl
  | cons p m ih =>
    obtain ⟨hlo, -, -, hrest⟩ := Memory.wfFrom_cons.mp hm
    rw [Memory.find, if_neg (by omega)]
    exact ih hrest (by omega)

/-- A list that reads the same as a canonical one has an entry no later than its first. -/
theorem Memory.le_head_of_find_eq {lo lo' a : Nat} {b : Byte} {m m' : Memory}
    (hm : Memory.wfFrom c lo ((a, b) :: m) = true) (hm' : Memory.wfFrom c lo' m' = true)
    (hfind : Memory.find ((a, b) :: m) a (defaultByte c a) = m'.find a (defaultByte c a)) :
    lo' ≤ a := by
  obtain ⟨-, -, hb, -⟩ := Memory.wfFrom_cons.mp hm
  by_contra hlt
  rw [Memory.find_of_lt hm' (Nat.lt_of_not_le hlt), Memory.find, if_pos rfl] at hfind
  exact hb hfind

/-- Canonical lists that read the same everywhere are equal. -/
theorem Memory.eq_of_find_eq {lo : Nat} {m m' : Memory} (hm : Memory.wfFrom c lo m = true)
    (hm' : Memory.wfFrom c lo m' = true) (hfind : ∀ a, m.find a (defaultByte c a) = m'.find a (defaultByte c a)) :
    m = m' := by
  induction m generalizing lo m' with
  | nil =>
    cases m' with
    | nil => rfl
    | cons p m' =>
      have hle := Memory.le_head_of_find_eq (lo' := p.1 + 1) hm' (m' := []) rfl (hfind p.1).symm
      omega
  | cons p m ih =>
    obtain ⟨a, b⟩ := p
    cases m' with
    | nil =>
      have hle := Memory.le_head_of_find_eq (lo' := a + 1) hm (m' := []) rfl (hfind a)
      omega
    | cons p' m' =>
      obtain ⟨a', b'⟩ := p'
      obtain ⟨-, hr, hd, hrest⟩ := Memory.wfFrom_cons.mp hm
      obtain ⟨-, hr', hd', hrest'⟩ := Memory.wfFrom_cons.mp hm'
      -- the first addresses agree, each being no later than the other
      have hle := Memory.le_head_of_find_eq hm (Memory.wfFrom_cons.mpr ⟨le_rfl, hr', hd', hrest'⟩) (hfind a)
      have hge := Memory.le_head_of_find_eq hm' (Memory.wfFrom_cons.mpr ⟨le_rfl, hr, hd, hrest⟩) (hfind a').symm
      obtain rfl : a = a' := hge.antisymm hle
      obtain rfl : b = b' := by simpa [Memory.find] using hfind a
      -- the rests read the same: at `a` and below as the default, elsewhere as the lists do
      refine congrArg ((a, b) :: ·) (ih hrest hrest' fun k => ?_)
      by_cases hk : a = k
      · rw [Memory.find_of_lt hrest (by omega), Memory.find_of_lt hrest' (by omega)]
      · simpa [Memory.find, hk] using hfind k

end

/-- Settles O38: reading the same everywhere is the hypothesis of the lists' equality. -/
theorem equalMemoriesAreEqualData : Obligations.EqualMemoriesAreEqualData := by
  unfold Obligations.EqualMemoriesAreEqualData
  intro s t hcfg hs ht hbytes
  rw [← hcfg] at ht
  refine Memory.eq_of_find_eq hs ht fun a => ?_
  have ha := hbytes a
  rwa [State.byteAt, State.byteAt, ← hcfg] at ha

end Sys2Proof.Machine
end

section
/-! PROOFS. The sprite draw (47_draw.md): every pixel, the collision, height 0, rows out of bounds, and drawing twice. -/

namespace Sys2Proof.Machine

variable {s t : State} {x y n : Nibble}

/-- The sprite's bit over pixel `(r, c)` for `DRW Vx, Vy, n` (R215 to R217). -/
def State.drawBit (s : State) (x y n : Nibble) (r c : Nat) : Bool :=
  spriteBit (s.bytesAt s.idx.toNat n.toNat) ((s.getV x).toNat % 64) ((s.getV y).toNat % 32) r c

theorem startCol_lt (b : Byte) : startCol b < 64 := Nat.mod_lt _ (by decide)

/-- Every pixel of the drawn display is XORed with the sprite's bit (R216, R218). -/
theorem State.blitSprite_pixel (s : State) (x y n : Nibble) {r c : Nat} (hr : r < 32) (hc : c < 64) :
    (s.blitSprite x y n).1.pixel r c = (s.pixel r c ^^ s.drawBit x y n r c) :=
  blit_pixel _ _ _ _ r c (startCol_lt _) hr hc

/-- A pixel was hit exactly if one was set under a 1 bit (R218). -/
theorem State.blitSprite_hit (s : State) (x y n : Nibble) :
    (s.blitSprite x y n).2 = true ↔ ∃ r < 32, ∃ c < 64, s.pixel r c = true ∧ s.drawBit x y n r c = true :=
  blit_collision _ _ _ _ (startCol_lt _)

theorem flagByte_eq_one_iff (b : Bool) : flagByte b = 1 ↔ b = true := by
  cases b <;> decide

theorem flagByte_zero_or_one (b : Bool) : flagByte b = 0 ∨ flagByte b = 1 := by
  cases b <;> decide

/-- After a draw VF is the hit. -/
theorem State.drawn_vf (s : State) (x y n : Nibble) : (s.drawn x y n).getV vf = flagByte (s.blitSprite x y n).2 :=
  State.getV_setV_same _ _ _

theorem State.drawn_regsUnchangedBut (s : State) (x y n : Nibble) : RegsUnchangedBut [0xF] s (s.drawn x y n) :=
  State.setV_regsUnchangedBut _ _ _

/-- Settles O43: the drawn display and VF are those of the blit, pixel by pixel. -/
theorem drawXorsEveryPixel : Obligations.DrawXorsEveryPixel := by
  unfold Obligations.DrawXorsEveryPixel
  intro x y n s hn hin
  have h := (execDrw_next (x := x) (y := y)).mpr ⟨.inr (show s.idx.toNat + n.toNat ≤ 4096 by omega), rfl⟩
  refine ⟨_, h, fun r hr c hc => s.blitSprite_pixel x y n hr hc, ?_, ?_, exec_pc h, s.drawn_regsUnchangedBut x y n,
    exec_unchangedBut h⟩
  · exact s.drawn_vf x y n ▸ flagByte_zero_or_one _
  · exact s.drawn_vf x y n ▸ (flagByte_eq_one_iff _).trans (s.blitSprite_hit x y n)

/-- A sprite without rows hits nothing and changes nothing (R221). -/
theorem State.drawn_zero (s : State) (x y : Nibble) : s.drawn x y 0 = (s.setV vf 0).advance := rfl

/-- Settles O44: height 0 is a write of 0 to VF; rows out of bounds are the error. -/
theorem drawHeightZeroAndOutOfBounds : Obligations.DrawHeightZeroAndOutOfBounds := by
  unfold Obligations.DrawHeightZeroAndOutOfBounds
  intro x y s
  constructor
  · exact ⟨_, execDrw_next.mpr ⟨.inl rfl, s.drawn_zero x y⟩, s.setV_advance vf 0⟩
  · intro n hn hout
    exact exec_fault_iff.mpr (.inl ⟨⟨hn, hout⟩, rfl⟩)

/-! ### Drawing twice (R220) -/

theorem State.bytesAt_congr {a k : Nat} (h : ∀ j, j < k → t.byteAt (a + j) = s.byteAt (a + j)) :
    t.bytesAt a k = s.bytesAt a k :=
  List.map_congr_left fun j hj => h j (List.mem_range.mp hj)

/-- The sprite depends on `I`, its bytes and the two position registers alone. -/
theorem State.drawBit_congr (hidx : t.idx = s.idx)
    (hrows : ∀ k, k < n.toNat → t.byteAt (s.idx.toNat + k) = s.byteAt (s.idx.toNat + k)) (hx : t.getV x = s.getV x)
    (hy : t.getV y = s.getV y) : t.drawBit x y n = s.drawBit x y n := by
  funext r c
  rw [State.drawBit, State.drawBit, hidx, hx, hy, State.bytesAt_congr hrows]

/-- Settles O45: on every pixel the two bits cancel, and the second hit is a pixel that the first draw set. -/
theorem drawingTwiceRestoresTheDisplay : Obligations.DrawingTwiceRestoresTheDisplay := by
  unfold Obligations.DrawingTwiceRestoresTheDisplay
  intro x y n s t t' hdraw hdisp hidx hrows hx hy bit
  obtain ⟨hin, rfl⟩ := execDrw_next.mp hdraw
  have hbit : t'.drawBit x y n = bit := State.drawBit_congr hidx hrows hx hy
  have hpixel : ∀ r < 32, ∀ c < 64, t'.pixel r c = (s.pixel r c ^^ bit r c) := fun r hr c hc =>
    (congrArg (fun d => Display.pixel d r c) hdisp).trans (s.blitSprite_pixel x y n hr hc)
  have hhit : (t'.blitSprite x y n).2 = true ↔ ∃ r < 32, ∃ c < 64, bit r c = true ∧ s.pixel r c = false := by
    rw [t'.blitSprite_hit, hbit]
    refine exists_congr fun r => and_congr_right fun hr => exists_congr fun c => and_congr_right fun hc => ?_
    rw [hpixel r hr c hc]
    cases s.pixel r c <;> cases bit r c <;> decide
  have hvf := (t'.drawn_vf x y n).symm ▸ flagByte_eq_one_iff (t'.blitSprite x y n).2
  refine ⟨_, execDrw_next.mpr ⟨hidx ▸ hin, rfl⟩, ?_, hvf.trans hhit, fun hclear => (hvf.trans hhit).trans ?_⟩
  · refine Display.ext_pixel _ _ fun r hr c hc => ?_
    change (t'.blitSprite x y n).1.pixel r c = s.pixel r c
    rw [t'.blitSprite_pixel x y n hr hc, hbit, hpixel r hr c hc, Bool.xor_assoc, Bool.xor_self, Bool.xor_false]
  · exact exists_congr fun r => and_congr_right fun hr => exists_congr fun c => and_congr_right fun hc =>
      and_iff_left_of_imp (hclear r hr c hc)

end Sys2Proof.Machine
end

section
/-! PROOFS. The key wait (46_key_wait.md R205 to R209): the fetching tick, the waiting ticks, and the machine that executes
the wait again instead of waiting. -/

namespace Sys2Proof.Machine

variable {s t : State}

/-- Settles O42: the two cases of the key wait. -/
theorem keyWaitCompletesOrLatches : Obligations.KeyWaitCompletesOrLatches := by
  unfold Obligations.KeyWaitCompletesOrLatches
  intro x s
  constructor
  · intro k hk
    obtain ⟨hx, hframe⟩ := s.setV_advance x (keyByte k)
    exact ⟨_, exec_ldVxK_of_lowestKey hk, by rw [hx, keyByte_toNat], hframe⟩
  · intro hnone
    exact ⟨_, exec_ldVxK_of_noKey hnone, rfl, rfl, s.latched_unchangedBut x⟩

/-- The result of a waiting tick is `Idle` (40_instruction_cycle.md R116). -/
theorem State.tickResult_of_wait (hw : s.wait = true) : s.tickResult = .idle := by
  have hnext : perform .tick s = .next s.waitTick := step_of_wait hw
  rw [State.tickResult, respond_of_next hnext]
  simp [completion, hw]

/-- Settles O13: a waiting tick is one poll, with its two cases. -/
theorem waitingTickPollsOnce : Obligations.WaitingTickPollsOnce := by
  unfold Obligations.WaitingTickPollsOnce
  intro s hw
  refine ⟨fun hnone => ?_, fun k hk => ?_, State.tickResult_of_wait hw⟩
  · rw [step_of_wait hw, State.waitTick_of_noKey hnone]
  · obtain ⟨hx, hpc, hregs, hframe⟩ := s.setV_advance s.waitX (keyByte k)
    have hended := hframe.trans (State.unchangedBut_with_wait _ false)
    have hstep := (step_of_wait hw).trans (congrArg _ (State.waitTick_of_lowestKey hk))
    exact ⟨_, hstep, (congrArg _ hx).trans (keyByte_toNat k),
      hpc, rfl, hregs, hended⟩

/-! ### Executing the wait again (R209) -/

section
variable (s : State)

theorem State.setBytes_forgetWait (a : Nat) (bs : List Byte) :
    s.forgetWait.setBytes a bs = (s.setBytes a bs).forgetWait := by
  induction bs generalizing s a with
  | nil => rfl
  | cons b bs ih => exact ih (s.setByte a b) (a + 1)

theorem State.setBank_forgetWait (k : Nat) (bs : List Byte) :
    s.forgetWait.setBank k bs = (s.setBank k bs).forgetWait := by
  induction bs generalizing s k with
  | nil => rfl
  | cons b bs ih => exact ih { s with v := s.v.setIfInBounds k b } (k + 1)

theorem State.storeRange_forgetWait (a : Nat) (bs : List Byte) :
    s.forgetWait.storeRange a bs = (s.storeRange a bs).map State.forgetWait := by
  unfold State.storeRange
  cases rangeFault a bs.length with
  | some f => rfl
  | none => exact congrArg Except.ok (s.setBytes_forgetWait a bs)

theorem State.loadRange_forgetWait (a n : Nat) : s.forgetWait.loadRange a n = (s.loadRange a n).map id := by
  unfold State.loadRange
  cases rangeFault a n <;> rfl

theorem State.push_forgetWait (w : Word) : s.forgetWait.push w = (s.push w).map State.forgetWait := by
  obtain ⟨h, hroom⟩ | ⟨h, hfull⟩ := s.push_cases w
  · rw [h]
    exact if_pos hroom
  · rw [h]
    exact if_neg hfull

theorem State.pop_forgetWait : s.forgetWait.pop = s.pop.map (Prod.map id State.forgetWait) := by
  cases hs : s.stack <;> simp [State.pop, State.forgetWait, hs, Except.map]

end

/-- Forgetting the flag twice is forgetting it once. -/
theorem mapNext_forgetWait_idem (o : Host.Outcome State Fault Refusal) :
    mapNext State.forgetWait (mapNext State.forgetWait o) = mapNext State.forgetWait o := by
  cases o <;> rfl

/-- An instruction looks at the flag and its register not at all, and but for the key wait it keeps them. -/
theorem exec_forgetWait (i : Instr) (s : State) :
    mapNext State.forgetWait (exec i s.forgetWait) = mapNext State.forgetWait (exec i s) := by
  by_cases hK : ∃ x, i = .ldVxK x
  · obtain ⟨x, rfl⟩ := hK
    obtain ⟨k, hk⟩ | hnone := s.lowestKey_or_none
    · rw [exec_ldVxK_of_lowestKey hk, exec_ldVxK_of_lowestKey (s := s.forgetWait) hk]
      rfl
    · rw [exec_ldVxK_of_noKey hnone, exec_ldVxK_of_noKey (s := s.forgetWait) hnone]
      rfl
  · refine Eq.trans (congrArg _ ?_) (mapNext_forgetWait_idem _)
    cases i
    case ldVxK x => exact absurd ⟨x, rfl⟩ hK
    case ret => exact orRaise_eq_mapNext _ s.pop_forgetWait fun _ => rfl
    case call => exact orRaise_eq_mapNext _ (s.push_forgetWait _) fun _ => rfl
    case ldB | storeRegs => exact orRaise_eq_mapNext _ (s.storeRange_forgetWait _ _) fun _ => rfl
    case drw => exact orRaise_eq_mapNext id (s.loadRange_forgetWait _ _) fun _ => rfl
    case loadRegs =>
      exact orRaise_eq_mapNext id (s.loadRange_forgetWait _ _) fun bs => congrArg State.advance (s.setBank_forgetWait 0 bs)
    all_goals rfl

/-- But for the flag, a waiting tick is the key wait of its register executed again. -/
theorem waitTick_forgetWait (s : State) :
    mapNext State.forgetWait (.next s.waitTick) = mapNext State.forgetWait (exec (.ldVxK s.waitX) s) := by
  obtain ⟨k, hk⟩ | hnone := s.lowestKey_or_none
  · rw [exec_ldVxK_of_lowestKey hk, State.waitTick_of_lowestKey hk]
    rfl
  · rw [exec_ldVxK_of_noKey hnone, State.waitTick_of_noKey hnone]
    rfl

/-- Settles O14: without the flag the latched wait is fetched and executed again; any other tick executes the same
instruction. -/
theorem keyWaitFlagAgreesWithReexecution : Obligations.KeyWaitFlagAgreesWithReexecution := by
  unfold Obligations.KeyWaitFlagAgreesWithReexecution
  intro s hlatched
  have hfetch : s.forgetWait.fetchInstr = s.fetchInstr := rfl
  obtain ⟨hw, h⟩ | ⟨-, f, hf, h⟩ | ⟨-, i, hi, h⟩ := step_cases s <;> rw [h]
  · rw [step_of_fetchInstr rfl (hfetch.trans (hlatched hw)), exec_forgetWait, waitTick_forgetWait]
  · rw [step_of_fetchInstr_error rfl (hfetch.trans hf)]
  · rw [step_of_fetchInstr rfl (hfetch.trans hi), exec_forgetWait]

end Sys2Proof.Machine
end

section
/-! PROOFS. The instruction cycle (40_instruction_cycle.md, 20_memory.md R54 to R56): the fetched word, its decoding, and the
result of a tick. -/

namespace Sys2Proof.Machine

variable {s t : State} {i : Instr} {f : Fault}

/-- An instruction was fetched only from a word in memory that decodes to it. -/
theorem State.decode_of_fetchInstr_ok (h : s.fetchInstr = .ok i) :
    s.pc.toNat < 0xFFF ∧ ∃ w, s.fetch = .ok w ∧ decodeWord s.cfg w = .ok i := by
  obtain ⟨hpc, hf⟩ | ⟨-, hf⟩ := s.fetch_cases
  · refine ⟨hpc, _, hf, ?_⟩
    cases hd : decodeWord s.cfg (wordOfBytes (s.byteAt s.pc.toNat) (s.byteAt (s.pc.toNat + 1))) with
    | ok j =>
      rw [State.fetchInstr_of_decode_ok hf hd] at h
      rw [Except.ok.inj h]
    | error e =>
      rw [State.fetchInstr_of_decode_error hf hd] at h
      cases h
  · rw [State.fetchInstr_of_fetch_error hf] at h
    cases h

/-- Two bytes that decode to an instruction are a word that does. -/
theorem decodeWord_of_decodeBytes {c : Config} {hi lo : Byte} (h : decodeBytes c [hi, lo] = .ok (i, [])) :
    decodeWord c (wordOfBytes hi lo) = .ok i := by
  cases hd : decodeWord c (wordOfBytes hi lo) <;> simp_all [decodeBytes]

/-- Settles O6: the two bytes are the fetched word, and the tick executes what it decodes to. -/
theorem stepRunsTheDecodedInstruction : Obligations.StepRunsTheDecodedInstruction := by
  unfold Obligations.StepRunsTheDecodedInstruction
  intro s i hw hpc hdecode
  exact step_of_fetchInstr hw (State.fetchInstr_of_decode_ok (State.fetch_of_lt hpc) (decodeWord_of_decodeBytes hdecode))

/-- The first byte is the high one (20_memory.md R54). -/
theorem wordOfBytes_toNat (hi lo : Byte) : (wordOfBytes hi lo).toNat = 256 * hi.toNat + lo.toNat := by
  rw [wordOfBytes, BitVec.toNat_append, ← Nat.shiftLeft_add_eq_or_of_lt lo.isLt, Nat.shiftLeft_eq, Nat.mul_comm]

/-- Settles O7: the two cases of the fetch, which looks at `PC` and two cells. -/
theorem fetchIsTwoBytesBigEndian : Obligations.FetchIsTwoBytesBigEndian := by
  unfold Obligations.FetchIsTwoBytesBigEndian
  refine ⟨fun s hpc => ⟨_, State.fetch_of_lt hpc, wordOfBytes_toNat _ _⟩, fun s hpc => ?_, fun s t hpc hhigh hlow => ?_⟩
  · exact State.fetch_error_iff.mpr ⟨hpc, rfl⟩
  · simp only [State.fetch, hpc, hhigh, hlow]

/-- Settles O10: the errors of an instruction and of a tick, with their payloads. -/
theorem errorsCarryTheirPayload : Obligations.ErrorsCarryTheirPayload := by
  unfold Obligations.ErrorsCarryTheirPayload
  constructor
  · intro i s a h
    obtain ⟨-, ha⟩ | ⟨-, -, ha⟩ | ⟨-, -, ha⟩ := exec_fault_iff.mp h
    · exact Fault.memoryAccess.inj ha
    · cases ha
    · cases ha
  · intro s w h
    obtain ⟨-, hfetch, -⟩ := step_decodeError_iff.mp h
    exact hfetch

/-- The word 0 decodes to nothing (30_encoding.md R88). -/
theorem decodeWord_zero (c : Config) : decodeWord c 0 = .error (.unassigned0 0) := rfl

/-- Settles O16: a tick that executed fetched a word that decodes, which 0 does not. -/
theorem tickReturnsTheExecutedWord : Obligations.TickReturnsTheExecutedWord := by
  unfold Obligations.TickReturnsTheExecutedWord
  intro s
  refine ⟨fun hw => by rw [State.tickResult_of_wait hw]; rfl, fun t hw h => ?_, fun f h => ?_⟩
  · obtain ⟨hw', -⟩ | ⟨-, f, -, hfault⟩ | ⟨-, i, hi, -⟩ := step_cases s
    · simp [hw] at hw'
    · simp [hfault] at h
    · obtain ⟨-, w, hfetch, hdecode⟩ := State.decode_of_fetchInstr_ok hi
      have hresult : s.tickResult = completion .tick s := congrArg Prod.fst (respond_of_next (op := .tick) h)
      refine ⟨w, hfetch, by simp [hresult, completion, hw, hfetch], ?_⟩
      rintro rfl
      rw [decodeWord_zero] at hdecode
      cases hdecode
  · have hresult : s.tickResult = .fault f := congrArg Prod.fst (respond_of_fault (op := .tick) h)
    exact ⟨hresult, by rw [hresult]; rfl⟩

end Sys2Proof.Machine
end

section
/-! PROOFS. The invariants of 10_state.md R40: at reset, in every tick, and in every operation of the host. -/

namespace Sys2Proof.Machine

variable {s t : State} {i : Instr}

/-- Settles O49: every clause holds of the reset values. -/
theorem resetHasTheInvariants : Obligations.ResetHasTheInvariants := by
  unfold Obligations.ResetHasTheInvariants
  intro c
  have hwait : (State.fresh c).wait = false := rfl
  refine ⟨⟨State.fresh_wf c, Nat.zero_le _, fun w hw => ?_, by simp [State.fresh], fun h => ?_⟩, fun h => ?_⟩
  · cases hw
  · simp [hwait] at h
  · simp [hwait] at h

/-- An instruction keeps memory canonical: the stores write ranges in bounds, the others no byte. -/
theorem exec_mem_wf (h : exec i s = .next t) (hm : Memory.wf s.cfg s.mem = true) : Memory.wf t.cfg t.mem = true := by
  cases i
  case ldB | storeRegs =>
    obtain ⟨u, hu, rfl⟩ := orRaise_next.mp h
    have hstored : Memory.wf u.cfg u.mem = true := State.storeRange_wf hu hm
    exact hstored
  case ret =>
    obtain ⟨w, rest, -, rfl⟩ := execRet_next.mp h
    exact hm
  case call =>
    obtain ⟨-, rfl⟩ := execCall_next.mp h
    exact hm
  case drw =>
    obtain ⟨-, rfl⟩ := execDrw_next.mp h
    exact hm
  case loadRegs =>
    obtain ⟨-, rfl⟩ := execLoadRegs_next.mp h
    simpa using hm
  case ldVxK =>
    obtain ⟨k, -, rfl⟩ | ⟨-, rfl⟩ := exec_ldVxK_cases h <;> exact hm
  all_goals
    cases h
    exact hm

/-- What an instruction does to the stack: nothing, a pop, or a push of the return address with room for it (R28). -/
theorem exec_stack (h : exec i s = .next t) :
    t.stack = s.stack ∨ (∃ w, s.stack = w :: t.stack) ∨ (s.sp < s.cfg.stackDepth ∧ t.stack = (s.pc + 2) :: s.stack) := by
  obtain hsame | hmem := exec_same_or_touched h .stack
  · exact .inl hsame
  · obtain rfl | ⟨nnn, rfl⟩ := stack_mem_touched.mp hmem
    · obtain ⟨w, rest, hs, rfl⟩ := execRet_next.mp h
      exact .inr (.inl ⟨w, hs⟩)
    · obtain ⟨hroom, rfl⟩ := execCall_next.mp h
      exact .inr (.inr ⟨hroom, rfl⟩)

/-- From an instruction in memory `PC` goes at most two words past the last one (R25). -/
theorem pcAfter_le (i : Instr) (hpc : s.pc.toNat < 0xFFF) (hstack : ∀ w ∈ s.stack, w.toNat ≤ 0x1000) :
    (pcAfter i s).toNat ≤ 0x1002 := by
  have hnext : (s.pc + 2).toNat ≤ 0x1002 := by bv_omega
  have hskip : (s.pc + 4).toNat ≤ 0x1002 := by bv_omega
  have hhere : s.pc.toNat ≤ 0x1002 := by omega
  cases i
  case jp nnn | call nnn =>
    have := nnn.isLt
    simp only [pcAfter, BitVec.toNat_ofNat]
    omega
  case ret =>
    cases hs : s.stack with
    | nil => simp [pcAfter, hs]
    | cons w rest =>
      have := hstack w (by simp [hs])
      simp only [pcAfter, hs, List.headD_cons]
      omega
  case seImm | sneImm | seReg | sneReg | skp | sknp | ldVxK =>
    simp only [pcAfter]
    split_ifs <;> assumption
  all_goals exact hnext

/-- An executed instruction keeps the invariant. -/
theorem exec_keeps_inv (hs : s.Inv) (hw : s.wait = false) (hpc : s.pc.toNat < 0xFFF) (h : exec i s = .next t) : t.Inv := by
  obtain ⟨hm, hsp, hstack, -, -⟩ := hs
  have hcfg : t.cfg = s.cfg := exec_unchangedBut h .cfg cfg_notMem_touched
  refine ⟨exec_mem_wf h hm, ?depth, ?entries, exec_pc h ▸ pcAfter_le i hpc hstack, ?waiting⟩
  case depth =>
    rw [hcfg, State.sp]
    obtain ht | ⟨w, ht⟩ | ⟨hroom, ht⟩ := exec_stack h
    · rwa [ht]
    · rw [State.sp, ht, List.length_cons] at hsp
      omega
    · rw [ht, List.length_cons]
      exact hroom
  case entries =>
    obtain ht | ⟨w, ht⟩ | ⟨-, ht⟩ := exec_stack h
    · rwa [ht]
    · exact fun v hv => hstack v (by rw [ht]; exact List.mem_cons_of_mem w hv)
    · have hreturn : (s.pc + 2).toNat ≤ 0x1000 := by bv_omega
      rw [ht]
      exact List.forall_mem_cons.mpr ⟨hreturn, hstack⟩
  case waiting =>
    intro hwait
    obtain ⟨hsame, -⟩ | ⟨x, -, -, rfl⟩ := exec_wait h
    · simp [hsame, hw] at hwait
    · exact Nat.le_of_lt_succ hpc

/-- A waiting tick keeps the invariant: it moves `PC` by one word from where it was fetched. -/
theorem waitTick_keeps_inv (hs : s.Inv) (hw : s.wait = true) : s.waitTick.Inv := by
  obtain ⟨k, hk⟩ | hnone := s.lowestKey_or_none
  · obtain ⟨hm, hsp, hstack, -, hpc⟩ := hs
    have hnext : (s.pc + 2).toNat ≤ 0x1002 := by
      have := hpc hw
      bv_omega
    rw [State.waitTick_of_lowestKey hk]
    exact ⟨hm, hsp, hstack, hnext, fun h => by cases h⟩
  · rwa [State.waitTick_of_noKey hnone]

/-- Settles O47: a tick waits or executes an instruction fetched from memory. -/
theorem stepKeepsTheInvariant : Obligations.StepKeepsTheInvariant := by
  unfold Obligations.StepKeepsTheInvariant
  intro s t hs h
  obtain ⟨hw, hstep⟩ | ⟨-, f, -, hstep⟩ | ⟨hw, i, hi, hstep⟩ := step_cases s <;> rw [hstep] at h
  · cases h
    exact waitTick_keeps_inv hs hw
  · cases h
  · obtain ⟨hpc, -⟩ := State.decode_of_fetchInstr_ok hi
    exact exec_keeps_inv hs hw hpc h

/-- Settles O48: a wait ends, stays as it is, or begins at the key wait just fetched. -/
theorem stepKeepsTheLatchedWait : Obligations.StepKeepsTheLatchedWait := by
  unfold Obligations.StepKeepsTheLatchedWait
  intro s t hs h hwait
  obtain ⟨hw, hstep⟩ | ⟨-, f, -, hstep⟩ | ⟨hw, i, hi, hstep⟩ := step_cases s <;> rw [hstep] at h
  · cases h
    obtain ⟨k, hk⟩ | hnone := s.lowestKey_or_none
    · rw [State.waitTick_of_lowestKey hk] at hwait
      cases hwait
    · rw [State.waitTick_of_noKey hnone]
      exact hs hw
  · cases h
  · obtain ⟨hsame, -⟩ | ⟨x, rfl, -, rfl⟩ := exec_wait h
    · simp [hsame, hw] at hwait
    · exact hi

/-! ### The operations of the host (49_host_operations.md) -/

/-- The state after an operation is its next state, or, after an error, the state before (60_exceptions.md R268). -/
theorem respond_state_cases (op : HostOp) (s : State) :
    (∃ t, perform op s = .next t ∧ (respond op s).2 = t) ∨ (respond op s).2 = s := by
  unfold respond
  cases h : perform op s with
  | next t => exact .inl ⟨t, rfl, rfl⟩
  | fault f => exact .inr rfl
  | refused q => exact .inr rfl

/-- A load that completes fits and is a range write from 0x200 (R238). -/
theorem hostLoad_next {bytes : List Byte} (h : hostLoad bytes s = .next t) :
    bytes.length ≤ progMax ∧ t = s.setBytes progBase bytes := by
  by_cases hfits : bytes.length ≤ progMax
  · rw [hostLoad_of_le s hfits] at h
    exact ⟨hfits, (Host.Outcome.next.inj h).symm⟩
  · rw [hostLoad_of_gt s (Nat.lt_of_not_le hfits)] at h
    cases h

/-- A key write that completes changes the key latch only (R243). -/
theorem hostSetKey_next {code : Nat} {pressed : Bool} (h : hostSetKey code pressed s = .next t) :
    ∃ keys, t = { s with keys := keys } := by
  unfold hostSetKey at h
  split at h
  · exact ⟨_, (Host.Outcome.next.inj h).symm⟩
  · cases h

/-- An operation that completes keeps the invariant. -/
theorem perform_keeps_inv {op : HostOp} (hs : s.Inv) (h : perform op s = .next t) : t.Inv := by
  cases op with
  | create =>
    cases h
    exact (resetHasTheInvariants s.cfg).1
  | load bytes =>
    obtain ⟨hfits, rfl⟩ := hostLoad_next h
    obtain ⟨hm, hsp, hstack, hpc, hwait⟩ := hs
    have hin : progBase + bytes.length ≤ memSize := Nat.add_le_add_left hfits 0x200
    have hm' := s.setBytes_wf progBase bytes (.inr hin) hm
    simpa [State.Inv, State.sp, hm'] using ⟨hsp, hstack, hpc, hwait⟩
  | tick => exact stepKeepsTheInvariant s t hs h
  | decrementTimers =>
    cases h
    exact hs
  | setKey code pressed =>
    obtain ⟨keys, rfl⟩ := hostSetKey_next h
    exact hs

/-- Settles O50: by induction on the operations; an error keeps the state. -/
theorem hostSequencesKeepTheInvariant : Obligations.HostSequencesKeepTheInvariant := by
  unfold Obligations.HostSequencesKeepTheInvariant
  intro ops
  induction ops with
  | nil => exact fun s hs => hs
  | cons op ops ih =>
    intro s hs
    refine ih _ ?_
    obtain ⟨t, ht, hrespond⟩ | hrespond := respond_state_cases op s <;> rw [hrespond]
    · exact perform_keeps_inv hs ht
    · exact hs

end Sys2Proof.Machine
end

section
/-! PROOFS. The operations of the host (49_host_operations.md): `create`, the tick after it, the accessors, the timers over
all operations, and the end of a run. -/

namespace Sys2Proof.Machine

variable {s t : State}

/-! ### `create` (R236) -/

/-- `create` completes in every state. -/
theorem respond_create (s : State) : respond .create s = (.done, s.create) := rfl

theorem State.byteAt_create (s : State) (a : Nat) : s.create.byteAt a = defaultByte s.cfg a :=
  State.byteAt_of_mem_nil (s := s.create) rfl a

/-- Outside the font a default byte is 0 (10_state.md R36). -/
theorem defaultByte_outside_font {c : Config} {a : Nat} (ha : a < c.fontBase ∨ c.fontBase + 80 ≤ a) :
    defaultByte c a = 0 := by
  unfold defaultByte
  split
  · have hbeyond : 80 ≤ a - c.fontBase := by omega
    simp [hbeyond]
  · rfl

/-- Settles O52: every field of the created state is its reset value. -/
theorem createResetsEveryField : Obligations.CreateResetsEveryField := by
  unfold Obligations.CreateResetsEveryField
  intro s
  refine ⟨s.create, respond_create s, fun k hk => ?_, fun a ha => ?_, rfl, rfl, rfl, rfl, blankDisplay_pixel, rfl,
    fun r => ?_, rfl, fun k => ?_, rfl, rfl, rfl⟩
  · rw [State.byteAt_create]
    exact defaultByte_font s.cfg hk
  · rw [State.byteAt_create]
    exact defaultByte_outside_font ha
  · simp [State.getV, State.create, State.fresh]
  · simp [State.keyPressed, State.create, State.fresh]

/-- Settles O53: the two bytes at 0x200 lie above the font, so the fetched word is 0. -/
theorem tickAfterCreateIsADecodeError : Obligations.TickAfterCreateIsADecodeError := by
  unfold Obligations.TickAfterCreateIsADecodeError
  intro s hc
  obtain ⟨-, hfont, -⟩ := hc
  have hbyte : ∀ a, 0x200 ≤ a → s.create.byteAt a = 0 := fun a ha =>
    (s.byteAt_create a).trans (defaultByte_outside_font (by omega))
  have hfetch : s.create.fetch = .ok (wordOfBytes (s.create.byteAt 0x200) (s.create.byteAt 0x201)) :=
    State.fetch_of_lt (s := s.create) (show 0x200 < 0xFFF by decide)
  rw [hbyte _ le_rfl, hbyte _ (by decide)] at hfetch
  have hfault := step_of_fetchInstr_error (s := s.create) rfl (State.fetchInstr_of_decode_error hfetch (decodeWord_zero _))
  exact congrArg Prod.fst (respond_of_fault (op := .tick) hfault)

/-! ### The accessors (R245, R246) -/

/-- Settles O58: the accessors are the fields, and column `c` is the bit `c` from the top. -/
theorem accessorsReadTheState : Obligations.AccessorsReadTheState := by
  unfold Obligations.AccessorsReadTheState
  intro s
  refine ⟨fun _ => rfl, rfl, rfl, fun a ha => s.memRead_of_lt (Nat.lt_succ_of_le ha), fun a ha => s.memRead_of_ge ha,
    fun r c hr hc => ?_⟩
  have hbit : 63 - c < 64 := by omega
  simp [State.pixelRows, State.pixel, Display.pixel, BitVec.getMsbD, hr, hc]

/-! ### The timers (10_state.md R40 (e)) -/

/-- No operation but a tick raises a timer. -/
theorem perform_timers_le {op : HostOp} (hop : op ≠ .tick) (h : perform op s = .next t) :
    t.dt.toNat ≤ s.dt.toNat ∧ t.st.toNat ≤ s.st.toNat := by
  cases op with
  | create =>
    cases h
    exact ⟨Nat.zero_le _, Nat.zero_le _⟩
  | load bytes =>
    obtain ⟨-, rfl⟩ := hostLoad_next h
    simp
  | tick => exact absurd rfl hop
  | decrementTimers =>
    cases h
    simp [countDown_toNat]
  | setKey code pressed =>
    obtain ⟨keys, rfl⟩ := hostSetKey_next h
    exact ⟨le_rfl, le_rfl⟩

/-- Settles O57: a timer that is higher has changed, in a tick, so by the writer of its piece of state. -/
theorem timersRiseOnlyByTheirLoad : Obligations.TimersRiseOnlyByTheirLoad := by
  unfold Obligations.TimersRiseOnlyByTheirLoad
  intro op s
  obtain ⟨t, ht, hrespond⟩ | hrespond := respond_state_cases op s <;> rw [hrespond]
  · by_cases hop : op = .tick
    · subst hop
      obtain ⟨-, -, -, -, -, -, hdt, hst, -⟩ := eachPieceHasItsWriters s t ht
      constructor
      · intro hrise
        obtain hsame | ⟨x, hw, hx⟩ := hdt
        · exact absurd hrise (by simp [hsame])
        · exact ⟨rfl, hw, x, hx⟩
      · intro hrise
        obtain hsame | ⟨x, hw, hx⟩ := hst
        · exact absurd hrise (by simp [hsame])
        · exact ⟨rfl, hw, x, hx⟩
    · obtain ⟨hdt, hst⟩ := perform_timers_le hop ht
      exact ⟨fun hrise => absurd hrise (Nat.not_lt.mpr hdt), fun hrise => absurd hrise (Nat.not_lt.mpr hst)⟩
  · exact ⟨fun hrise => absurd hrise (Nat.lt_irrefl _), fun hrise => absurd hrise (Nat.lt_irrefl _)⟩

/-! ### The end of a run (R249) -/

/-- The word of a jump. -/
theorem formA_jp (a : Addr12) : 0x1000 ||| zextAddr a = formA 0x1 a := rfl

/-- A tick of a finished machine jumps to where it is. -/
theorem State.FinishedAt.step_eq {a : Addr12} (h : s.FinishedAt a) : step s = .next s := by
  obtain ⟨hpc, hw, hfetch⟩ := h
  have hdecode : decodeWord s.cfg (0x1000 ||| zextAddr a) = .ok (.jp a) := by
    rw [formA_jp]
    simp [decodeWord]
  rw [step_of_fetchInstr hw (State.fetchInstr_of_decode_ok hfetch hdecode)]
  exact congrArg (fun w => Host.Outcome.next (s.jump w)) hpc.symm

/-- Settles O51: each tick leaves the state, so any number does. -/
theorem finishedMachineStays : Obligations.FinishedMachineStays := by
  unfold Obligations.FinishedMachineStays
  intro s a n h
  have htick : perform .tick s = .next s := h.step_eq
  induction n with
  | zero => exact ⟨rfl, rfl⟩
  | succ n ih => simpa [List.replicate_succ, afterOps, safeRun, respond, htick] using ih

end Sys2Proof.Machine
end

section
/-! PROOFS. The signal mapping (49_host_operations.md R247): runs of cycles as sequences of operations, and the outputs
after one edge. -/

namespace Sys2Proof.Machine

/-- What an operation in progress does in one cycle: it completes as a whole, or the core holds. -/
theorem Block.proceed_cases {op : HostOp} {k : Bool} {s : State} {b' : Block} {done : Option Completion}
    (h : Block.proceed op k s = (b', done)) :
    (b'.core = (respond op s).2 ∧ done = some (op, (respond op s).1)) ∨ (b'.core = s ∧ done = none) := by
  cases k <;> cases h
  · exact .inr ⟨rfl, rfl⟩
  · exact .inl ⟨rfl, rfl⟩

/-- An edge performs the operations it completes, with their results. -/
theorem Block.edge_core {c : Cycle} {b b' : Block} {done : Option Completion} (h : b.edge c = some (b', done)) :
    b'.core = afterOps (done.toList.map Prod.fst) b.core ∧ done.toList = answers (done.toList.map Prod.fst) b.core := by
  obtain ⟨-, -, rfl, rfl⟩ | ⟨op, k, hproceed⟩ := Block.edge_cases h
  · exact ⟨rfl, rfl⟩
  · obtain ⟨hcore, rfl⟩ | ⟨hcore, rfl⟩ := Block.proceed_cases hproceed <;> exact ⟨hcore, rfl⟩

theorem answers_append (as bs : List HostOp) (s : State) :
    answers (as ++ bs) s = answers as s ++ answers bs (afterOps as s) := by
  induction as generalizing s with
  | nil => rfl
  | cons op as ih => exact congrArg _ (ih _)

/-- A run with a meaning begins with an edge that has one and goes on with a run that has one. -/
theorem afterCycles_cons {c : Cycle} {cs : List Cycle} {b b' : Block} {ds : List Completion}
    (h : afterCycles (c :: cs) b = some (b', ds)) :
    ∃ b₁ done ds', b.edge c = some (b₁, done) ∧ afterCycles cs b₁ = some (b', ds') ∧ ds = done.toList ++ ds' := by
  simp only [afterCycles] at h
  cases hedge : b.edge c with
  | none => simp [hedge] at h
  | some r =>
    simp only [hedge, Option.map_eq_some_iff] at h
    obtain ⟨⟨b₂, ds'⟩, hrest, heq⟩ := h
    cases heq
    exact ⟨r.1, r.2, ds', rfl, hrest, rfl⟩

/-- A run of cycles is the completed operations in turn. -/
theorem afterCycles_serialised {cs : List Cycle} {b b' : Block} {ds : List Completion}
    (h : afterCycles cs b = some (b', ds)) :
    b'.core = afterOps (ds.map Prod.fst) b.core ∧ ds = answers (ds.map Prod.fst) b.core := by
  induction cs generalizing b ds with
  | nil =>
    cases h
    exact ⟨rfl, rfl⟩
  | cons c cs ih =>
    obtain ⟨b₁, done, ds', hedge, hrest, rfl⟩ := afterCycles_cons h
    obtain ⟨hcore, hdone⟩ := Block.edge_core hedge
    obtain ⟨hcore', hds⟩ := ih hrest
    rw [hcore] at hcore' hds
    rw [List.map_append, afterOps_append, answers_append]
    exact ⟨hcore', congrArg₂ (· ++ ·) hdone hds⟩

/-- A run into a cycle without meaning has none. -/
theorem afterCycles_append_none {cs rest : List Cycle} {c : Cycle} {b b' : Block} {ds : List Completion}
    (h : afterCycles cs b = some (b', ds)) (hc : b'.edge c = none) : afterCycles (cs ++ c :: rest) b = none := by
  induction cs generalizing b ds with
  | nil =>
    cases h
    simp [afterCycles, hc]
  | cons c₁ cs ih =>
    obtain ⟨b₁, done, ds', hedge, hrest, -⟩ := afterCycles_cons h
    simp [afterCycles, hedge, ih hrest]

/-- Settles O59: runs by induction on their cycles, one edge by its cases. -/
theorem cyclesAreSerialisedOperations : Obligations.CyclesAreSerialisedOperations := by
  unfold Obligations.CyclesAreSerialisedOperations
  exact ⟨fun cs b b' ds h => afterCycles_serialised h, fun c b => Block.edge_none,
    fun cs rest c b b' ds h hc => afterCycles_append_none h hc⟩

/-! ### One edge -/

section
variable {c : Cycle} {b : Block}

/-- Reset is one `create`, at once (R247). -/
theorem Block.edge_of_rst (h : c.strobes.rst = true) : b.edge c = some (⟨b.core.create, none⟩, some (.create, .done)) :=
  if_pos h

/-- Without reset the one request to a free block, or the operation in progress, proceeds. -/
theorem Block.edge_of_request {op : HostOp} (hrst : c.strobes.rst = false)
    (h : (b.pending = none ∧ c.strobes.requests = [op]) ∨ (b.pending = some op ∧ c.strobes.requests = [])) :
    b.edge c = some (Block.proceed op c.completes b.core) := by
  obtain ⟨hpending, hrequests⟩ | ⟨hpending, hrequests⟩ := h <;> simp [Block.edge, hrst, hpending, hrequests]

/-- A free block of which nothing is asked holds. -/
theorem Block.edge_of_quiet (hrst : c.strobes.rst = false) (hpending : b.pending = none)
    (hrequests : c.strobes.requests = []) :
    b.edge c = some (b, none) := by
  simp [Block.edge, hrst, hpending, hrequests]

end

/-- The error codes fit in the three bits of `fault_kind`. -/
theorem Fault.code_lt (f : Fault) : f.code < 8 := by
  cases f <;> simp [Fault.code]

theorem Result.faultKind_isSome (r : Result) : r.faultKind.isSome = true ↔ ∃ f, r = .fault f := by
  cases r <;> simp [Result.faultKind]

theorem Result.faultKind_code (f : Fault) : (Result.fault f).faultKind.map BitVec.toNat = some f.code := by
  simp [Result.faultKind, Nat.mod_eq_of_lt f.code_lt]

/-- A load request is among the requests, with the bytes of its stream. -/
theorem Strobes.load_mem_requests {p : Strobes} {l : LoadRequest} (h : p.loadReq = some l) :
    .load l.data.toList ∈ p.requests := by
  simp [Strobes.requests, h]

/-- Settles O60: one clause per kind of edge; the outputs are read off the completion. -/
theorem signalsAnswerTheRequest : Obligations.SignalsAnswerTheRequest := by
  unfold Obligations.SignalsAnswerTheRequest
  intro c b a
  refine ⟨fun hrst => ?reset, fun hrst op hop => ⟨fun hcompletes => ?completes, fun hbusy => ?busy⟩,
    fun hrst hpending hrequests => ⟨Block.edge_of_quiet hrst hpending hrequests, rfl⟩, fun d => decide_eq_true_iff,
    fun l hl => ⟨l.data.toList, Strobes.load_mem_requests hl, Vector.length_toList⟩⟩
  case reset => exact ⟨_, _, Block.edge_of_rst hrst, respond_create b.core, rfl, rfl⟩
  case completes =>
    refine ⟨?_, rfl, Result.faultKind_isSome _, fun f hf => ?_, ?_, rfl⟩
    · rw [Block.edge_of_request hrst hop, hcompletes]
      rfl
    · exact (congrArg (fun r => r.faultKind.map BitVec.toNat) hf).trans (Result.faultKind_code f)
    · rintro rfl
      rfl
  case busy =>
    rw [Block.edge_of_request hrst hop, hbusy]
    exact ⟨rfl, rfl⟩

end Sys2Proof.Machine
end
